-- ==== Sys2Proof/Config.lean ====
section
/-! DEFINITION. The parameters of the CORE (00_scope.md R5 to R7) at the values of the reference
configuration. Every operation, block and codec function of the model takes the widths as arguments;
only `Instr`, `State` and `step`, which the host fixes as closed types, are their instances here. -/

namespace Sys2Proof

/-- R5: the container width `W`, reference value 8 (92_eei_decisions.md D2). -/
abbrev Config.W : Nat := 8

/-- R6: the width of a count field, reference value 8 (92_eei_decisions.md D3). -/
abbrev Config.DW : Nat := 8

/-- R7: the time from a command to its response. OPEN: no value is given and no rule reads it, so it
has no body and nothing of the model reads it. -/
opaque Config.LATENCY : Nat

/-- R5, R6: what the spec asks of the two widths, for any configuration. -/
abbrev Config.Legal (W DW : Nat) : Prop := 1 ≤ W ∧ W < 2 ^ DW

end Sys2Proof
end

