-- ==== Sys2Proof/Word.lean ====
section
/-! DEFINITION. The two words that pass the CORE's ports: the command word (30_encoding.md R55) and the
response word (R62), as bit vectors numbered as 00_scope.md R10 numbers them. -/

namespace Sys2Proof

/-- R55: the length of `op ‖ ke ‖ k ‖ td ‖ id ‖ a ‖ b`, that is `4 + 3·DW + 2·W`. -/
abbrev cmdBits (W DW : Nat) : Nat := 3 + 1 + DW + DW + DW + W + W

/-- R62: the length of `status ‖ ovf ‖ q ‖ res`, that is `4 + DW + W`. -/
abbrev rspBits (W DW : Nat) : Nat := 3 + 1 + DW + W

/-- The command word of the reference configuration: 44 bits. -/
abbrev CmdWord : Type := BitVec (cmdBits Config.W Config.DW)

/-- The response word of the reference configuration: 20 bits. -/
abbrev RspWord : Type := BitVec (rspBits Config.W Config.DW)

end Sys2Proof
end

