-- ==== Sys2Proof/Machine/State.lean ====
section
/-! DEFINITION. The CORE has no architectural state (10_state.md R20 to R22, R27). What a step runs on is
the wires of its top level (R28): the command word at the input ports and the response at the output
ports. -/

namespace Sys2Proof.Machine

/-- 60_exceptions.md R165: what a response says of its command. The codes 5, 6 and 7 are never produced
and have no constructor. -/
inductive Status where
  | ok
  /-- The Scheme check failed (R166). -/
  | invalidScheme
  /-- DIV by a container that decodes to zero (R167). -/
  | divisionByZero
  /-- DIV with `precision_bits` above `fraction_digits` (R168). -/
  | invalidPrecision
  /-- The operation code selects no operation (R169). -/
  | illegalOp
  deriving DecidableEq, Repr

/-- 30_encoding.md R62: a response. `q` is a count; it is at most `W`, so it fits its field of `DW` bits
(`Obligations.EveryAnswerIsLegal`). -/
structure Response (W : Nat) where
  status : Status
  ovf : Bool
  q : Nat
  res : BitVec W
  deriving DecidableEq, Repr

/-- There is no fault: every command is answered (70_reset_and_hazards.md R189), and an error is the
status of its own response (60_exceptions.md R172). Nothing raises a fault; the type is empty. -/
inductive Fault where
  deriving DecidableEq, Repr

/-- Why a command is given no meaning. -/
inductive Refusal where
  /-- Raised by an arm of `exec` whose instruction is not modelled: by none of them now. Safe: nothing
  can be proved of a response that is never given. -/
  | notModelled (mnemonic : String)
  deriving DecidableEq, Repr

/-- R28: the ports. The caller drives `cmd` and the CORE drives `rsp`, which follows `cmd` at every instant
(`State.present`, `step`, `State.Settled`); nothing is kept (R20). -/
structure State where
  /-- The input ports `cmd_op`, `cmd_ke`, `cmd_k`, `cmd_td`, `cmd_id`, `cmd_a`, `cmd_b`, as one word in
  the order of 30_encoding.md R55. -/
  cmd : CmdWord
  /-- The output ports `rsp_status`, `rsp_ovf`, `rsp_q`, `rsp_res`. -/
  rsp : Response Config.W
  deriving DecidableEq, Repr

/-- R35, R185: a reset has nothing to set. DESIGN CHOICE (log entry 2, unsafe): the input ports carry the
all-zero word. DEDUCED from R28: the output ports carry the answer to that word, InvalidScheme. -/
def State.reset : State where
  cmd := 0
  rsp := { status := .invalidScheme, ovf := false, q := 0, res := 0 }

end Sys2Proof.Machine
end

