-- ==== Sys2Proof/Syntax.lean ====
section
/-! DEFINITION. The commands of the CORE: the operand fields every command carries (30_encoding.md R55)
and the six operations (R57), one constructor for each row of the opcode table. -/

namespace Sys2Proof

/-- R55: the fields of a command other than `op`, in the order of the command word. There is one format,
so every operation carries them all, those it ignores too (R59). The counts `k`, `td`, `id` are the
unsigned values of their fields (R56); the containers `a`, `b` are bit patterns of `W` bits (R23). -/
structure Fields (W : Nat) where
  /-- 1: the field `k` gives `precision_bits`; 0: the caller gives none. -/
  ke : Bool
  /-- `precision_bits`, for DIV. -/
  k : Nat
  /-- `total_digits` of the Scheme (R24). -/
  td : Nat
  /-- `integer_digits` of the Scheme (R24). -/
  id : Nat
  /-- First container: the operand of DECODE, the left operand, the dividend. -/
  a : BitVec W
  /-- Second container: the right operand, the subtrahend, the divisor. -/
  b : BitVec W
  deriving DecidableEq, Repr

/-- R57: the six operations. The operation codes 6 and 7 select none (R58) and have no constructor. -/
inductive Instr where
  | mkscheme (f : Fields Config.W)
  | decode (f : Fields Config.W)
  | add (f : Fields Config.W)
  | sub (f : Fields Config.W)
  | mul (f : Fields Config.W)
  | div (f : Fields Config.W)
  deriving DecidableEq, Repr

/-- The operand fields of a command, whatever its operation. -/
def Instr.fields : Instr → Fields Config.W
  | .mkscheme f => f
  | .decode f => f
  | .add f => f
  | .sub f => f
  | .mul f => f
  | .div f => f

end Sys2Proof
end

