-- ==== Sys2Proof/Machine/Ops.lean ====
section
/-! DEFINITION. The operations every meaning shares: the Scheme check, answering a command, and answering it with an error, which is all that "taking an exception" is in the CORE
(60_exceptions.md R172). There is no return from an error to write beside it (R173). -/

namespace Sys2Proof.Machine

/-- 40_scheme_decode.md R80: the validity of a Scheme. -/
abbrev Valid (W td id : Nat) : Prop := 1 ≤ td ∧ td ≤ W ∧ id ≤ td

/-- R80 for the Scheme a command carries. -/
abbrev ValidScheme {W : Nat} (f : Fields W) : Prop := Valid W f.td f.id

/-- 00_scope.md R11: `fraction_digits`, derived from the Scheme. Outside a valid Scheme the subtraction
stops at zero (DESIGN CHOICE, log entry 10); no response depends on it there. -/
def fractionDigits {W : Nat} (f : Fields W) : Nat := f.td - f.id

/-- 00_scope.md R13: the response of a command that fails. -/
def raise {W : Nat} (e : Status) : Response W := { status := e, ovf := false, q := 0, res := 0 }

/-- 30_encoding.md R63: the response of a command that succeeds. `q` is always that of the command's
own Scheme (R62, 90_conflicts.md C10). -/
def answer {W : Nat} (f : Fields W) (ovf : Bool) (res : BitVec W) : Response W :=
  { status := .ok, ovf := ovf, q := fractionDigits f, res := res }

/-- 30_encoding.md R66, 40_scheme_decode.md R81: the Scheme check that comes before every operation. -/
def withScheme {W : Nat} (f : Fields W) (body : Response W) : Response W :=
  if ValidScheme f then body else raise .invalidScheme

/-- The CORE drives its output ports. Nothing else changes. -/
def State.respond (r : Response Config.W) (s : State) : State := { s with rsp := r }

/-- The end of every transaction: the response appears at the output ports. -/
def finish (r : Response Config.W) (s : State) : Host.Outcome State Fault Refusal := .next (s.respond r)

/-- 60_exceptions.md R172: taking an error. The error is the status of the response to the failing
command and that is all: no state is saved, no mode changes, control goes nowhere. -/
def takeError (e : Status) (s : State) : Host.Outcome State Fault Refusal := finish (raise e) s

/-- R165: the code of a status. -/
def Status.code : Status → BitVec 3
  | .ok => 0
  | .invalidScheme => 1
  | .divisionByZero => 2
  | .invalidPrecision => 3
  | .illegalOp => 4

/-- R165, 93_implementation_defined.md U15: the status a code stands for; 5, 6 and 7 stand for none. -/
def statusOfCode (c : BitVec 3) : Option Status :=
  match c.toNat with
  | 0 => some .ok
  | 1 => some .invalidScheme
  | 2 => some .divisionByZero
  | 3 => some .invalidPrecision
  | 4 => some .illegalOp
  | _ => none

/-- 30_encoding.md R62: the response word. -/
def Response.word {W : Nat} (DW : Nat) (r : Response W) : BitVec (rspBits W DW) :=
  r.status.code ++ BitVec.ofBool r.ovf ++ BitVec.ofNat DW r.q ++ r.res

/-- R62: how a caller reads a response word; none for a status code that is never produced. -/
def responseOfWord (W DW : Nat) (v : BitVec (rspBits W DW)) : Option (Response W) :=
  (statusOfCode (v.extractLsb' (W + DW + 1) 3)).map fun st =>
    { status := st
      ovf := v.getLsbD (W + DW)
      q := (v.extractLsb' W DW).toNat
      res := v.extractLsb' 0 W }

end Sys2Proof.Machine
end

