-- ==== Sys2Proof/Machine/Operands.lean ====
section
/-! DEFINITION. How an operation reads its operands: the value functions of a container (00_scope.md
R11), the integer division and shifts (R12), the effective pre-scale of DIV (44_divide.md R147), and the
bits of a command that are not read at all (30_encoding.md R59, 10_state.md R23). R11 defines the value
functions for valid Schemes; what they give elsewhere is in log entry 10 (DESIGN CHOICE). -/

namespace Sys2Proof.Machine

variable {W : Nat}

/-- R11 `M(x)`: the value of the low `td` bits. -/
def M (td : Nat) (x : BitVec W) : Nat := x.toNat % 2 ^ td

/-- R11 `sign(x)`: the Scheme's sign bit, `x[td-1]`. For `td = 0`, no Scheme, it is bit 0 (DESIGN
CHOICE, log entry 10). -/
def sign (td : Nat) (x : BitVec W) : Bool := x.getLsbD (td - 1)

/-- R11 `S(x)`: the two's-complement reading of the low `td` bits. -/
def S (td : Nat) (x : BitVec W) : Int := (M td x : Int) - 2 ^ td * ((sign td x).toNat : Int)

/-- R11 `narrow(z)`: `z mod 2^td` in a field of `W` bits. -/
def narrow (W td : Nat) (z : Int) : BitVec W := BitVec.ofNat W (z % 2 ^ td).toNat

/-- R12 `tdiv`: the quotient rounded toward zero. R12 defines it for `d ≠ 0` only; that it is 0 for
`d = 0` is the model's own (DESIGN CHOICE, log entry 10): no response depends on it, since DIV fails
first (44_divide.md R150). -/
def tdiv (n d : Int) : Int := n.tdiv d

/-- R12 `shl`. -/
def shl (z : Int) (s : Nat) : Int := z * 2 ^ s

/-- R12 `asr`: `floor(z / 2^s)`. -/
def asr (z : Int) (s : Nat) : Int := z / 2 ^ s

/-- 10_state.md R26, 30_encoding.md R63: the low `td` bits of a container as a number of `W` bits in
two's complement. -/
def sextLow (td : Nat) (x : BitVec W) : BitVec W := (x.setWidth td).signExtend W

/-- 44_divide.md R147: the effective pre-scale. -/
def kEff (f : Fields W) : Nat := if f.ke then f.k else fractionDigits f

/-- 30_encoding.md R59: a command with every field its operation ignores set to zero. -/
def zeroIgnored : Instr → Instr
  | .mkscheme f => .mkscheme { ke := false, k := 0, td := f.td, id := f.id, a := 0, b := 0 }
  | .decode f => .decode { ke := false, k := 0, td := f.td, id := f.id, a := f.a, b := 0 }
  | .add f => .add { f with ke := false, k := 0 }
  | .sub f => .sub { f with ke := false, k := 0 }
  | .mul f => .mul { f with ke := false, k := 0 }
  | .div f => .div (if f.ke then f else { f with k := 0 })

/-- 10_state.md R23: the fields with the container bits at or above `td` set to zero. -/
def maskContainers (f : Fields W) : Fields W :=
  { f with a := BitVec.ofNat W (M f.td f.a), b := BitVec.ofNat W (M f.td f.b) }

end Sys2Proof.Machine
end

