-- ==== Sys2Proof/Machine/Flags.lean ====
section
/-! DEFINITION. The one flag-like output of the CORE, `ovf` (10_state.md R25), and the answer of the four
arithmetic operations, which narrow an exact integer and report in `ovf` whether it was in range. -/

namespace Sys2Proof.Machine

/-- 00_scope.md R11 `inrange(z)`. For `td = 0`, no Scheme, it holds of -1 and 0 (DESIGN CHOICE, log entry
10). -/
abbrev InRange (td : Nat) (z : Int) : Prop := -2 ^ (td - 1) ≤ z ∧ z ≤ 2 ^ (td - 1) - 1

/-- R25: `ovf` of an operation that narrows `z`. -/
def ovfOf (td : Nat) (z : Int) : Bool := !decide (InRange td z)

/-- R25, 30_encoding.md R63: the answer of an operation whose exact result is the integer `z`. -/
def answerNarrowed {W : Nat} (f : Fields W) (z : Int) : Response W :=
  answer f (ovfOf f.td z) (narrow W f.td z)

end Sys2Proof.Machine
end

