-- ==== Sys2Proof/Machine/AddSub.lean ====
section
/-! DEFINITION. The operations of the block fixed_point_adder (41_add_sub.md): ADD and SUB. -/

namespace Sys2Proof.Machine

variable {W : Nat}

/-- 41_add_sub.md R101, for any width. -/
def addRsp (f : Fields W) : Response W :=
  withScheme f (answerNarrowed f (S f.td f.a + S f.td f.b))

/-- 41_add_sub.md R102, for any width. -/
def subRsp (f : Fields W) : Response W :=
  withScheme f (answerNarrowed f (S f.td f.a - S f.td f.b))

/-- ADD (R101). -/
def execAdd (f : Fields Config.W) (s : State) : Host.Outcome State Fault Refusal :=
  finish (addRsp f) s

/-- SUB (R102). -/
def execSub (f : Fields Config.W) (s : State) : Host.Outcome State Fault Refusal :=
  finish (subRsp f) s

end Sys2Proof.Machine
end

