-- ==== Sys2Proof/Machine/ScaleAdjuster.lean ====
section
/-! DEFINITION. The shift stages inside MUL and DIV (42_scale_adjuster.md). No caller can select them. -/

namespace Sys2Proof.Machine

/-- 42_scale_adjuster.md R116, PRE_DIV: the pre-scale of the dividend. -/
def preDiv (sa : Int) (k : Nat) : Int := shl sa k

/-- 42_scale_adjuster.md R117, POST_MUL: the arithmetic shift of the product, rounding toward negative
infinity. -/
def postMul (p : Int) (q : Nat) : Int := asr p q

/-- 42_scale_adjuster.md R118, POST_DIV: the residual shift of the quotient. -/
def postDiv (quot : Int) (s : Nat) : Int := shl quot s

end Sys2Proof.Machine
end

