-- ==== Sys2Proof/Machine/Divide.lean ====
section
/-! DEFINITION. The operation of the block fixed_point_divider (44_divide.md): DIV. -/

namespace Sys2Proof.Machine

variable {W : Nat}

/-- 44_divide.md R146: the adjusted integer `z` for the pre-scale `k`. R146 forms it for a nonzero
divisor and `k ≤ q` only; elsewhere it is total by log entry 10 (DESIGN CHOICE). -/
def divExact (f : Fields W) (k : Nat) : Int :=
  postDiv (tdiv (preDiv (S f.td f.a) k) (S f.td f.b)) (fractionDigits f - k)

/-- 44_divide.md R146, for any width: the Scheme, then the divisor (R150), then the precision (R149). -/
def divRsp (f : Fields W) : Response W :=
  withScheme f <|
    if M f.td f.b = 0 then raise .divisionByZero
    else if fractionDigits f < kEff f then raise .invalidPrecision
    else answerNarrowed f (divExact f (kEff f))

/-- DIV (R146). -/
def execDiv (f : Fields Config.W) (s : State) : Host.Outcome State Fault Refusal :=
  finish (divRsp f) s

end Sys2Proof.Machine
end

