-- ==== Sys2Proof/Machine/Multiply.lean ====
section
/-! DEFINITION. The operation of the block fixed_point_multiplier (43_multiply.md): MUL. -/

namespace Sys2Proof.Machine

variable {W : Nat}

/-- 43_multiply.md R131: the exact signed product, shifted right by `q`. -/
def mulExact (f : Fields W) : Int := postMul (S f.td f.a * S f.td f.b) (fractionDigits f)

/-- 43_multiply.md R131, for any width. -/
def mulRsp (f : Fields W) : Response W := withScheme f (answerNarrowed f (mulExact f))

/-- MUL (R131). -/
def execMul (f : Fields Config.W) (s : State) : Host.Outcome State Fault Refusal :=
  finish (mulRsp f) s

end Sys2Proof.Machine
end

