-- ==== Sys2Proof/Machine/Scheme.lean ====
section
/-! DEFINITION. The operations of the block fixed_point_decoder (40_scheme_decode.md): MKSCHEME and
DECODE. -/

namespace Sys2Proof.Machine

variable {W : Nat}

/-- 40_scheme_decode.md R82, for any width. -/
def mkschemeRsp (f : Fields W) : Response W := withScheme f (answer f false 0)

/-- 40_scheme_decode.md R83, for any width. -/
def decodeRsp (f : Fields W) : Response W := withScheme f (answer f false (sextLow f.td f.a))

/-- MKSCHEME (R82): a pure check of the Scheme. -/
def execMkscheme (f : Fields Config.W) (s : State) : Host.Outcome State Fault Refusal :=
  finish (mkschemeRsp f) s

/-- DECODE (R83): the numerator of the decoded value, in `W`-bit two's complement. -/
def execDecode (f : Fields Config.W) (s : State) : Host.Outcome State Fault Refusal :=
  finish (decodeRsp f) s

end Sys2Proof.Machine
end

