-- ==== Sys2Proof/WellFormed.lean ====
section
/-! DEFINITION. Which commands can be written as a command word: each count must fit its field of `DW`
bits (30_encoding.md R55, 00_scope.md R6). Containers fit by their type. No other bit pattern is illegal
as an encoding (R58): an invalid Scheme or a zero divisor is well formed and gets its error response. -/

namespace Sys2Proof

/-- R6, R55: the three counts fit `DW` bits. -/
abbrev Fields.WellFormed {W : Nat} (DW : Nat) (f : Fields W) : Prop :=
  f.k < 2 ^ DW ∧ f.td < 2 ^ DW ∧ f.id < 2 ^ DW

/-- A command is well formed when its fields are. -/
abbrev Instr.WellFormed (i : Instr) : Prop := i.fields.WellFormed Config.DW

end Sys2Proof
end

