-- ==== Sys2Proof/Decode.lean ====
section
/-! DEFINITION. The command word (30_encoding.md R55 to R60): reading its fields, decoding it, and after
that encoding. The field functions are written for any `W` and `DW`; the decoder and the encoder of
`Instr` are their instances in the reference configuration. -/

namespace Sys2Proof

/-- R55: the field `op`, bits `2W+3DW+3 : 2W+3DW+1`. -/
def opOf (W DW : Nat) (w : BitVec (cmdBits W DW)) : BitVec 3 := w.extractLsb' (2 * W + 3 * DW + 1) 3

/-- R55: the other fields, each at its bit position; a count is read as its unsigned value (R56). -/
def fieldsOf (W DW : Nat) (w : BitVec (cmdBits W DW)) : Fields W where
  ke := w.getLsbD (2 * W + 3 * DW)
  k := (w.extractLsb' (2 * W + 2 * DW) DW).toNat
  td := (w.extractLsb' (2 * W + DW) DW).toNat
  id := (w.extractLsb' (2 * W) DW).toNat
  a := w.extractLsb' W W
  b := w.extractLsb' 0 W

/-- R57, R58: the decoder. It is total and needs `op` only: every word with `op` 0 to 5 is a command
of that operation, whatever its other fields hold, and 6 and 7 select no operation. -/
def decodeWord (w : CmdWord) : Option Instr :=
  match (opOf Config.W Config.DW w).toNat with
  | 0 => some (.mkscheme (fieldsOf Config.W Config.DW w))
  | 1 => some (.decode (fieldsOf Config.W Config.DW w))
  | 2 => some (.add (fieldsOf Config.W Config.DW w))
  | 3 => some (.sub (fieldsOf Config.W Config.DW w))
  | 4 => some (.mul (fieldsOf Config.W Config.DW w))
  | 5 => some (.div (fieldsOf Config.W Config.DW w))
  | _ => none

/-- The command word whose bits, numbered as the opcode table numbers them, are the low `nbits` bits of
`w`. A command is one bit vector of 44 bits; it is never split into bytes (20_memory.md R41). -/
def tableWord (nbits w : Nat) : CmdWord := BitVec.ofNat _ (w % 2 ^ nbits)

/-- The host's question: the instruction the decoder reads from the word with those bits. -/
def decodeTableWord (nbits w : Nat) : Option Instr := decodeWord (tableWord nbits w)

/-- R57: the operation code of each operation. -/
def Instr.op : Instr → BitVec 3
  | .mkscheme _ => 0
  | .decode _ => 1
  | .add _ => 2
  | .sub _ => 3
  | .mul _ => 4
  | .div _ => 5

/-- R55: the command word, the concatenation of its fields, most significant first. -/
def packCmd {W : Nat} (DW : Nat) (op : BitVec 3) (f : Fields W) : BitVec (cmdBits W DW) :=
  op ++ BitVec.ofBool f.ke ++ BitVec.ofNat DW f.k ++ BitVec.ofNat DW f.td ++ BitVec.ofNat DW f.id
    ++ f.a ++ f.b

/-- The command word of a well-formed command. -/
def encode (i : Instr) : CmdWord := packCmd Config.DW i.op i.fields

end Sys2Proof
end

