-- ==== Sys2Proof/Machine/Transaction.lean ====
section
/-! DEFINITION. The whole behaviour of the CORE as the total function from a command to its response
(30_encoding.md R66, 00_scope.md R8), for any `W` and `DW`; and what the caller does at the ports, where
the outputs are that function of the inputs at every instant (10_state.md R28). -/

namespace Sys2Proof.Machine

/-- 30_encoding.md R66 `exec`, on the fields of a command. -/
def transact {W : Nat} (op : BitVec 3) (f : Fields W) : Response W :=
  match op.toNat with
  | 0 => mkschemeRsp f
  | 1 => decodeRsp f
  | 2 => addRsp f
  | 3 => subRsp f
  | 4 => mulRsp f
  | 5 => divRsp f
  | _ => raise .illegalOp

/-- 30_encoding.md R66 `exec`, on a command word. -/
def transactWord (W DW : Nat) (w : BitVec (cmdBits W DW)) : Response W :=
  transact (opOf W DW w) (fieldsOf W DW w)

/-- The CORE's answer to a command word of the reference configuration. -/
def answerTo (w : CmdWord) : Response Config.W := transactWord Config.W Config.DW w

/-- R8, R28: the caller drives the input ports, and the output ports follow at once: the reference form
is combinational. -/
def State.present (w : CmdWord) (s : State) : State := { s with cmd := w, rsp := answerTo w }

end Sys2Proof.Machine
end

