-- ==== Sys2Proof/Machine/Step.lean ====
section
/-! DEFINITION. One step is one transaction (00_scope.md R8): the command at the input ports is executed
(20_memory.md R49) and its response stands at the output ports. The response is that of the total function
on command words (`Obligations.StepDrivesTheTransactionResponse`), so a step changes nothing where the
outputs already follow the inputs. -/

namespace Sys2Proof.Machine

/-- 30_encoding.md R66: the command presented is executed; a reserved operation code is answered with
IllegalOp (R58), before anything else of the command is looked at. -/
def step (s : State) : Host.Outcome State Fault Refusal :=
  match decodeWord s.cmd with
  | some i => exec i s
  | none => takeError .illegalOp s

/-- The caller presents the command whose bits the opcode table numbers as those of `w`. Nothing is
fetched or loaded in the CORE (log entry 4). -/
def State.withFetchWord (s : State) (nbits w : Nat) : State := s.present (tableWord nbits w)

end Sys2Proof.Machine
end

