-- ==== Sys2Proof/Machine/Assembler.lean ====
section
/-! DEFINITION. The textual form of a command (30_encoding.md R67): one line of characters is read as a
command. What R67 does not fix is in log entry 6. -/

namespace Sys2Proof.Machine

/-- A number as it is written: its value, and the digits after the `.` of a binary literal. -/
structure Literal where
  value : Nat
  point : Option Nat
  deriving DecidableEq, Repr

/-- The value of a digit in a base of at most 16. -/
def digitVal (base : Nat) (c : Char) : Option Nat :=
  let n := c.toNat
  let v :=
    if 48 ≤ n ∧ n ≤ 57 then n - 48
    else if 65 ≤ n ∧ n ≤ 70 then n - 55
    else if 97 ≤ n ∧ n ≤ 102 then n - 87
    else 16
  if v < base then some v else none

/-- Digits of a base, most significant first, after the value read so far. -/
def digitsFrom (base : Nat) : Nat → List Char → Option Nat
  | acc, [] => some acc
  | acc, c :: cs => (digitVal base c).bind fun d => digitsFrom base (acc * base + d) cs

/-- One digit or more of a base. -/
def digits (base : Nat) : List Char → Option Nat
  | [] => none
  | c :: cs => digitsFrom base 0 (c :: cs)

/-- A binary literal: digits, with at most one `.`, which is not read as a digit. -/
def binaryLiteral (cs : List Char) : Option Literal :=
  let whole := cs.takeWhile (· ≠ '.')
  match cs.dropWhile (· ≠ '.') with
  | [] => (digits 2 whole).map fun v => { value := v, point := none }
  | _ :: frac => (digits 2 (whole ++ frac)).map fun v => { value := v, point := some frac.length }

/-- R67: decimal, or hexadecimal after `0x`, or binary after `0b`. -/
def literal : List Char → Option Literal
  | '0' :: 'x' :: cs => (digits 16 cs).map fun v => { value := v, point := none }
  | '0' :: 'b' :: cs => binaryLiteral cs
  | cs => (digits 10 cs).map fun v => { value := v, point := none }

/-- Spaces and tabs. -/
def isBlank (c : Char) : Bool := c == ' ' || c == '\t'

/-- The text without blanks before and after it. -/
def trim (cs : List Char) : List Char := ((cs.dropWhile isBlank).reverse.dropWhile isBlank).reverse

/-- The pieces between commas. -/
def pieces : List Char → List (List Char)
  | [] => [[]]
  | c :: cs =>
    if c = ',' then [] :: pieces cs
    else match pieces cs with
      | [] => [[c]]
      | p :: ps => (c :: p) :: ps

/-- Read every operand, or none if one of them is no number. -/
def literals : List (List Char) → Option (List Literal)
  | [] => some []
  | p :: ps => (literal (trim p)).bind fun l => (literals ps).map (l :: ·)

/-- A count: it has no point and fits its field of `DW` bits. -/
def Literal.count (l : Literal) : Option Nat :=
  if l.point = none ∧ l.value < 2 ^ Config.DW then some l.value else none

/-- A container: it fits `W` bits, and a point stands at the implied binary point of the Scheme. Where the
Scheme is invalid R67 names no such point: the model takes `td - id` on natural numbers, so with `id > td`
only a point after the last digit is read (DESIGN CHOICE, log entry 6). -/
def Literal.container (td id : Nat) (l : Literal) : Option (BitVec Config.W) :=
  if (l.point = none ∨ l.point = some (td - id)) ∧ l.value < 2 ^ Config.W then
    some (BitVec.ofNat Config.W l.value)
  else none

/-- R67: the fields of a command from its operands in order; what is not written is zero. -/
def assembleFields : List Literal → Option (Fields Config.W)
  | [td, id] => do
    let vtd ← td.count
    let vid ← id.count
    return { ke := false, k := 0, td := vtd, id := vid, a := 0, b := 0 }
  | [td, id, a] => do
    let vtd ← td.count
    let vid ← id.count
    let va ← a.container vtd vid
    return { ke := false, k := 0, td := vtd, id := vid, a := va, b := 0 }
  | [td, id, a, b] => do
    let vtd ← td.count
    let vid ← id.count
    let va ← a.container vtd vid
    let vb ← b.container vtd vid
    return { ke := false, k := 0, td := vtd, id := vid, a := va, b := vb }
  | [td, id, a, b, k] => do
    let vtd ← td.count
    let vid ← id.count
    let va ← a.container vtd vid
    let vb ← b.container vtd vid
    let vk ← k.count
    return { ke := true, k := vk, td := vtd, id := vid, a := va, b := vb }
  | _ => none

/-- R67, 30_encoding.md R57: the mnemonic of each operation. -/
def mnemonicOf : Instr → List Char
  | .mkscheme _ => "MKSCHEME".toList
  | .decode _ => "DECODE".toList
  | .add _ => "ADD".toList
  | .sub _ => "SUB".toList
  | .mul _ => "MUL".toList
  | .div _ => "DIV".toList

/-- R67: the number of operands each mnemonic takes, and its operation. -/
def operationOf (mnemonic : List Char) (operands : Nat) : Option (Fields Config.W → Instr) :=
  if mnemonic = "MKSCHEME".toList ∧ operands = 2 then some .mkscheme
  else if mnemonic = "DECODE".toList ∧ operands = 3 then some .decode
  else if mnemonic = "ADD".toList ∧ operands = 4 then some .add
  else if mnemonic = "SUB".toList ∧ operands = 4 then some .sub
  else if mnemonic = "MUL".toList ∧ operands = 4 then some .mul
  else if mnemonic = "DIV".toList ∧ (operands = 4 ∨ operands = 5) then some .div
  else none

/-- R67: one line: a mnemonic, a comma-separated operand list, and a comment after `;`. None when the
line is no command. -/
def assemble (line : List Char) : Option Instr := do
  let text := trim (line.takeWhile (· ≠ ';'))
  let ls ← literals (pieces (text.dropWhile fun c => !isBlank c))
  let mk ← operationOf (text.takeWhile fun c => !isBlank c) ls.length
  let f ← assembleFields ls
  return mk f

end Sys2Proof.Machine
end

