-- ==== Sys2Proof/Machine/Blocks.lean ====
section
/-! DEFINITION. The five blocks of the CORE with the ports and the internal widths of 10_state.md R29 to
R34, for any `W` and `DW`, and their composition. Everything here is bit-vector hardware: no unbounded
integer appears. The composition computes the response word of `transactWord`
(`Obligations.BlocksComputeTheResponseWord`). What a block gives for inputs for which the spec states no
output is in log entry 12 (DESIGN CHOICE); no response depends on it. -/

namespace Sys2Proof.Machine

/-- R29: the outputs of `fixed_point_decoder`. -/
structure DecoderOut (W DW : Nat) where
  schemeOk : Bool
  q : BitVec DW
  sx : BitVec W
  isZero : Bool
  deriving DecidableEq, Repr

/-- R30, R33: a narrowed result and its overflow output. -/
structure Narrowed (W : Nat) where
  res : BitVec W
  ovf : Bool
  deriving DecidableEq, Repr

/-- R32: the outputs of `fixed_point_divider`. -/
structure DividerOut (W : Nat) where
  dz : Bool
  quot : BitVec (2 * W + 1)
  deriving DecidableEq, Repr

/-- R28: the output ports of the top level. -/
structure RspPorts (W DW : Nat) where
  status : BitVec 3
  ovf : Bool
  q : BitVec DW
  res : BitVec W
  deriving DecidableEq, Repr

/-- R29: block `fixed_point_decoder`, the Scheme check and the reading of one container. -/
def fixedPointDecoder {W DW : Nat} (td id : BitVec DW) (x : BitVec W) : DecoderOut W DW :=
  if 1 ≤ td.toNat ∧ td.toNat ≤ W ∧ id.toNat ≤ td.toNat then
    { schemeOk := true
      q := td - id
      sx := (x.setWidth td.toNat).signExtend W
      isZero := x.setWidth td.toNat == 0 }
  else { schemeOk := false, q := 0, sx := 0, isZero := false }

/-- R30, R33: the narrowing of a signed number of `n` bits to its low `td` bits. It overflows when the
kept bits, read as a signed number, are not the whole number. R11 defines `narrow` and `inrange` for valid
Schemes only. For `td = 0` the model gives `res = 0` and `ovf` exactly when `z ≠ 0`; for `td > W` it gives
the low `W` bits, and `ovf` exactly when `z` does not fit `td` signed bits, so never when `td ≥ n` (DESIGN
CHOICE, log entry 12). -/
def narrowBits {n : Nat} (W td : Nat) (z : BitVec n) : Narrowed W :=
  { res := (z.setWidth td).setWidth W
    ovf := (z.setWidth td).signExtend n != z }

/-- R30: block `fixed_point_adder`, with a sum of `W + 1` bits. -/
def fixedPointAdder {W DW : Nat} (sa sb : BitVec W) (sub : Bool) (td : BitVec DW) : Narrowed W :=
  let z := if sub then sa.signExtend (W + 1) - sb.signExtend (W + 1)
    else sa.signExtend (W + 1) + sb.signExtend (W + 1)
  narrowBits W td.toNat z

/-- R31: block `fixed_point_multiplier`, with a product of `2W` bits. -/
def fixedPointMultiplier {W : Nat} (sa sb : BitVec W) : BitVec (2 * W) :=
  sa.signExtend (2 * W) * sb.signExtend (2 * W)

/-- R32: block `fixed_point_divider`, with a quotient of `2W + 1` bits. Where `sb` is 0 and `b_is_zero` is
0, as R29 drives them on an invalid Scheme, R12 gives no quotient; the model gives 0 (DESIGN CHOICE, log
entry 12). -/
def fixedPointDivider {W : Nat} (n : BitVec (2 * W)) (sb : BitVec W) (bIsZero : Bool) : DividerOut W :=
  { dz := bIsZero
    quot := if bIsZero then 0 else (n.signExtend (2 * W + 1)).sdiv (sb.signExtend (2 * W + 1)) }

/-- R33: block `scale_adjuster`, function PRE_DIV. 42_scale_adjuster.md R116 gives it for `k ≤ q` only. For
a larger `k` the model keeps the low `2W` bits of the shifted dividend (DESIGN CHOICE, log entry 12). -/
def scalePreDiv {W DW : Nat} (sa : BitVec W) (k : BitVec DW) : BitVec (2 * W) :=
  sa.signExtend (2 * W) <<< k.toNat

/-- R33: block `scale_adjuster`, function POST_MUL. -/
def scalePostMul {W DW : Nat} (p : BitVec (2 * W)) (q : BitVec DW) : BitVec (2 * W + 1) :=
  (p.sshiftRight q.toNat).signExtend (2 * W + 1)

/-- R33: block `scale_adjuster`, function POST_DIV. Its count is `q - k`; for a `quot` and `s` of no DIV
with `k ≤ q` the model keeps the low `2W + 1` bits (DESIGN CHOICE, log entry 12). -/
def scalePostDiv {W DW : Nat} (quot : BitVec (2 * W + 1)) (s : BitVec DW) : BitVec (2 * W + 1) :=
  quot <<< s.toNat

/-- R33: block `scale_adjuster`, the narrowing of the MUL and DIV paths. -/
def scaleNarrow {W DW : Nat} (z : BitVec (2 * W + 1)) (td : BitVec DW) : Narrowed W :=
  narrowBits W td.toNat z

/-- R28, 00_scope.md R13: the output ports of a failing command. -/
def failPorts {W DW : Nat} (e : Status) : RspPorts W DW := { status := e.code, ovf := false, q := 0, res := 0 }

/-- R28: the output ports of a command that succeeds. -/
def okPorts {W DW : Nat} (q : BitVec DW) (n : Narrowed W) : RspPorts W DW :=
  { status := Status.ok.code, ovf := n.ovf, q := q, res := n.res }

/-- R32, R33, 44_divide.md R146: the division path of the top level. The blocks are wires, driven before
the precision is tested; for `k > q`, where `q - k` wraps at `DW` bits, what they give is discarded (DESIGN
CHOICE, log entry 12) and the answer is InvalidPrecision, or DivisionByZero before it (R149, R150). -/
def divPath {W DW : Nat} (ke : Bool) (k td : BitVec DW) (da db : DecoderOut W DW) : RspPorts W DW :=
  let kEff := if ke then k else da.q
  let out := fixedPointDivider (scalePreDiv da.sx kEff) db.sx db.isZero
  if out.dz then failPorts .divisionByZero
  else if da.q.ult kEff then failPorts .invalidPrecision
  else okPorts da.q (scaleNarrow (scalePostDiv out.quot (da.q - kEff)) td)

/-- R28: the top level, the blocks composed as 30_encoding.md R66 orders them. -/
def blocksTop {W DW : Nat} (op : BitVec 3) (ke : Bool) (k td id : BitVec DW) (a b : BitVec W) :
    RspPorts W DW :=
  let da := fixedPointDecoder td id a
  let db := fixedPointDecoder td id b
  if 6 ≤ op.toNat then failPorts .illegalOp
  else if !da.schemeOk then failPorts .invalidScheme
  else
    match op.toNat with
    | 0 => okPorts da.q { res := 0, ovf := false }
    | 1 => okPorts da.q { res := da.sx, ovf := false }
    | 2 => okPorts da.q (fixedPointAdder da.sx db.sx false td)
    | 3 => okPorts da.q (fixedPointAdder da.sx db.sx true td)
    | 4 => okPorts da.q (scaleNarrow (scalePostMul (fixedPointMultiplier da.sx db.sx) da.q) td)
    | _ => divPath ke k td da db

/-- R28: the wires of the input ports are the fields of the command word, those of the output ports the
fields of the response word. -/
def blocksWord (W DW : Nat) (w : BitVec (cmdBits W DW)) : BitVec (rspBits W DW) :=
  let r := blocksTop (opOf W DW w) (w.getLsbD (2 * W + 3 * DW))
    (w.extractLsb' (2 * W + 2 * DW) DW) (w.extractLsb' (2 * W + DW) DW) (w.extractLsb' (2 * W) DW)
    (w.extractLsb' W W) (w.extractLsb' 0 W)
  r.status ++ BitVec.ofBool r.ovf ++ r.q ++ r.res

end Sys2Proof.Machine
end

