-- ==== Sys2Proof/Machine/Caller.lean ====
section
/-! DEFINITION. The ports by the names of 10_state.md R28, and a caller that presents commands one after
the other. -/

namespace Sys2Proof.Machine

/-- R28 `cmd_op`. -/
def State.cmdOp (s : State) : BitVec 3 := opOf Config.W Config.DW s.cmd

/-- R28 `cmd_ke`. -/
def State.cmdKe (s : State) : Bool := s.cmd.getLsbD (2 * Config.W + 3 * Config.DW)

/-- R28 `cmd_k`. -/
def State.cmdK (s : State) : BitVec Config.DW := s.cmd.extractLsb' (2 * Config.W + 2 * Config.DW) Config.DW

/-- R28 `cmd_td`. -/
def State.cmdTd (s : State) : BitVec Config.DW := s.cmd.extractLsb' (2 * Config.W + Config.DW) Config.DW

/-- R28 `cmd_id`. -/
def State.cmdId (s : State) : BitVec Config.DW := s.cmd.extractLsb' (2 * Config.W) Config.DW

/-- R28 `cmd_a`. -/
def State.cmdA (s : State) : BitVec Config.W := s.cmd.extractLsb' Config.W Config.W

/-- R28 `cmd_b`. -/
def State.cmdB (s : State) : BitVec Config.W := s.cmd.extractLsb' 0 Config.W

/-- R28: the output ports `rsp_status`, `rsp_ovf`, `rsp_q`, `rsp_res` at their widths. -/
def State.rspPorts (s : State) : RspPorts Config.W Config.DW where
  status := s.rsp.status.code
  ovf := s.rsp.ovf
  q := BitVec.ofNat Config.DW s.rsp.q
  res := s.rsp.res

/-- 20_memory.md R46: a caller presents commands one at a time and keeps each response. -/
def serve : List CmdWord → State → List (Response Config.W) × State
  | [], s => ([], s)
  | w :: ws, s =>
    match step (s.present w) with
    | .next t => (t.rsp :: (serve ws t).1, (serve ws t).2)
    | .fault _ => ([], s)
    | .refused _ => ([], s)

end Sys2Proof.Machine
end

