-- ==== Sys2Proof/Machine/InFlight.lean ====
section
/-! DEFINITION. An implementation with latency and several callers, as far as the spec promises anything
of it (70_reset_and_hazards.md R185, R188; 20_memory.md R47). Commands in flight are not architectural
(10_state.md R27), so this stands beside `State`. There is no time in it (R190): an event says only that
a command is accepted, that a caller's oldest command is answered, or that a reset arrives. -/

namespace Sys2Proof.Machine

/-- A command accepted and not yet answered. -/
structure Flight where
  caller : Nat
  cmd : CmdWord
  deriving DecidableEq, Repr

/-- A response delivered to the caller whose command it answers. -/
structure Delivery where
  caller : Nat
  rsp : Response Config.W
  deriving DecidableEq, Repr

/-- What an implementation holds, and what it has delivered. -/
structure Link where
  /-- Commands in flight, oldest first. -/
  queue : List Flight
  /-- Responses delivered, oldest first. -/
  delivered : List Delivery
  deriving DecidableEq, Repr

/-- What can happen at the ports of an implementation with latency. -/
inductive LinkEvent where
  /-- A caller's command is accepted. It can no longer be withdrawn (R188). -/
  | accept (caller : Nat) (cmd : CmdWord)
  /-- The caller's oldest command in flight is answered, if it has one. -/
  | answer (caller : Nat)
  /-- The reset input of the implementation (R185). -/
  | reset
  deriving DecidableEq, Repr

/-- Right after power-up nothing is in flight and nothing has been delivered. -/
def Link.empty : Link := { queue := [], delivered := [] }

/-- The first command of a caller in flight, and the queue without it. -/
def takeFirst (caller : Nat) : List Flight → Option (Flight × List Flight)
  | [] => none
  | x :: xs =>
    if x.caller = caller then some (x, xs)
    else (takeFirst caller xs).map fun p => (p.1, x :: p.2)

/-- R188, R47: a response goes to the caller of its own command, and is the CORE's answer to it. -/
def Link.after (l : Link) : LinkEvent → Link
  | .accept c w => { l with queue := l.queue ++ [{ caller := c, cmd := w }] }
  | .answer c =>
    match takeFirst c l.queue with
    | none => l
    | some (x, rest) =>
      { queue := rest, delivered := l.delivered ++ [{ caller := c, rsp := answerTo x.cmd }] }
  | .reset => { l with queue := [] }

/-- A history of events. -/
def Link.run (es : List LinkEvent) (l : Link) : Link := es.foldl Link.after l

/-- The responses a caller has received, oldest first. -/
def Link.received (l : Link) (c : Nat) : List (Response Config.W) :=
  (l.delivered.filter fun d => d.caller = c).map (·.rsp)

/-- The commands of a caller in flight, oldest first. -/
def Link.waiting (l : Link) (c : Nat) : List CmdWord :=
  (l.queue.filter fun x => x.caller = c).map (·.cmd)

/-- The commands of a caller that a history accepts, oldest first. -/
def accepted (c : Nat) (es : List LinkEvent) : List CmdWord :=
  es.filterMap fun e =>
    match e with
    | .accept d w => if d = c then some w else none
    | .answer _ => none
    | .reset => none

end Sys2Proof.Machine
end

