-- ==== Sys2Proof/Machine/Script.lean ====
section
/-! DEFINITION. The caller's scripts (30_encoding.md R68). Names, copying and conditions happen in the
caller; none of it is state or behaviour of the CORE. -/

namespace Sys2Proof.Machine

/-- An operand of a script's command: a number, or `%n.res`, the result the caller kept under name `n`. -/
inductive Operand where
  | lit (v : Nat)
  | res (n : Nat)
  deriving DecidableEq, Repr

/-- R68: the fields of a kept response that a condition can ask for. -/
inductive RspField where
  | status
  | ovf
  | q
  | res
  deriving DecidableEq, Repr

/-- A condition on a kept response: a field of it equals a number, or differs from it. -/
inductive Condition where
  | isEq (n : Nat) (x : RspField) (v : Nat)
  | isNe (n : Nat) (x : RspField) (v : Nat)
  deriving DecidableEq, Repr

/-- R68: a line of a script. -/
inductive ScriptLine where
  /-- `%n = <command>`; an absent `k` is `ke = 0`. -/
  | send (n : Nat) (op : BitVec 3) (td id a b : Operand) (k : Option Operand)
  /-- `if <condition on a response> stop`. -/
  | stopIf (c : Condition)
  deriving DecidableEq, Repr

/-- The name under which a line keeps a response, if it sends a command. -/
def ScriptLine.sends : ScriptLine → Option Nat
  | .send n _ _ _ _ _ _ => some n
  | .stopIf _ => none

/-- What the caller keeps: a name and the response under it, the latest first. -/
abbrev Kept : Type := List (Nat × Response Config.W)

/-- The response kept under a name. R68 does not say what `%n` means when two lines of a script keep a
response under one name; the model takes the latest (DESIGN CHOICE, log entry 11). -/
def Kept.find : Kept → Nat → Option (Response Config.W)
  | [], _ => none
  | p :: ps, n => if p.1 = n then some p.2 else Kept.find ps n

/-- 70_reset_and_hazards.md R188: a command that uses `%n.res` can be built only after response `%n`
has arrived. -/
def Operand.value (h : Kept) : Operand → Option Nat
  | .lit v => some v
  | .res n => (Kept.find h n).map fun r => r.res.toNat

/-- The number in a field of a response word (R62). -/
def RspField.value (r : Response Config.W) : RspField → Nat
  | .status => r.status.code.toNat
  | .ovf => r.ovf.toNat
  | .q => r.q
  | .res => r.res.toNat

/-- Whether a condition holds; none when it asks for a response that has not arrived. -/
def Condition.holds (h : Kept) : Condition → Option Bool
  | .isEq n x v => (Kept.find h n).map fun r => x.value r == v
  | .isNe n x v => (Kept.find h n).map fun r => x.value r != v

/-- The command word of a script's command, its operands copied into its fields. R68 does not say what a
number too large for its field means; the model keeps its low bits, `W` of a container and `DW` of a
count (DESIGN CHOICE, log entry 11). -/
def commandOf (h : Kept) (op : BitVec 3) (td id a b : Operand) (k : Option Operand) : Option CmdWord := do
  let vtd ← td.value h
  let vid ← id.value h
  let va ← a.value h
  let vb ← b.value h
  let vk ← match k with
    | none => some 0
    | some x => x.value h
  return packCmd Config.DW op
    { ke := k.isSome, k := vk, td := vtd, id := vid
      a := BitVec.ofNat Config.W va, b := BitVec.ofNat Config.W vb }

/-- R68, 70_reset_and_hazards.md R189: run a script. It is over when its last command is answered or when
the caller stops; none when a line needs a response that has not arrived. -/
def runScript : List ScriptLine → Kept → Option Kept
  | [], h => some h
  | .send n op td id a b k :: rest, h =>
    match commandOf h op td id a b k with
    | none => none
    | some w => runScript rest ((n, answerTo w) :: h)
  | .stopIf c :: rest, h =>
    match c.holds h with
    | none => none
    | some true => some h
    | some false => runScript rest h

end Sys2Proof.Machine
end

