-- ==== Sys2Proof/Machine/Value.lean ====
section
/-! DEFINITION. The decoded value of a container (40_scheme_decode.md section 3): the closed form, the
sum and the loop. It is an exact rational; no operation forms it (10_state.md R26). The spec defines it for
valid Schemes; elsewhere it is what the formula gives (DESIGN CHOICE, log entry 10). -/

namespace Sys2Proof.Machine

variable {W : Nat}

/-- 00_scope.md R11 `V(x)`: the closed form `S(x) / 2^q`. -/
def V (td id : Nat) (x : BitVec W) : ℚ := (S td x : ℚ) / 2 ^ (td - id)

/-- The bit `x[i]` as a number. -/
def bitVal (x : BitVec W) (i : Nat) : ℚ := ((x.getLsbD i).toNat : ℚ)

/-- 40_scheme_decode.md R84: the weighted sum of the bits, the sign bit negative. -/
def decodeSum (td id : Nat) (x : BitVec W) : ℚ :=
  -bitVal x (td - 1) * (2 : ℚ) ^ ((id : ℤ) - 1)
    + ∑ i ∈ Finset.range (td - 1), bitVal x i * (2 : ℚ) ^ ((i : ℤ) - ((td : ℤ) - (id : ℤ)))

/-- 40_scheme_decode.md R85, the body of the loop: the bits below position `j`, the place value `2^e` and
the sum so far. -/
def decodeLoopFrom (td : Nat) (x : BitVec W) : Nat → ℤ → ℚ → ℚ
  | 0, _, acc => acc
  | j + 1, e, acc =>
    let term := bitVal x j * (2 : ℚ) ^ e
    let term := if j = td - 1 ∧ x.getLsbD j = true then -term else term
    decodeLoopFrom td x j (e - 1) (acc + term)

/-- 40_scheme_decode.md R85: the source's loop, from the sign bit down. -/
def decodeLoop (td id : Nat) (x : BitVec W) : ℚ := decodeLoopFrom td x td ((id : ℤ) - 1) 0

/-- 10_state.md R26: the value a caller reads in a DECODE response, `S_W(res) / 2^q`. -/
def reportedValue (r : Response W) : ℚ := (r.res.toInt : ℚ) / 2 ^ r.q

/-- 40_scheme_decode.md R87: the granularity of a Scheme. -/
def granularity (td id : Nat) : ℚ := 1 / 2 ^ (td - id)

/-- 40_scheme_decode.md R87: the representable range of a Scheme. -/
def Representable (td id : Nat) (v : ℚ) : Prop :=
  -(2 : ℚ) ^ ((id : ℤ) - 1) ≤ v ∧ v ≤ (2 : ℚ) ^ ((id : ℤ) - 1) - granularity td id

end Sys2Proof.Machine
end

