-- ==== Sys2Proof/Safety.lean ====
section
/-! DEFINITION. What the output ports of a machine that is never reset may carry. The CORE has no fault to
avoid (60_exceptions.md R172), so a safe run is one whose every response is legal and is the answer to
the command that stands at the input ports. -/

namespace Sys2Proof.Machine

/-- 30_encoding.md R63, 00_scope.md R13: a response that is not OK carries nothing beside its status.
R11: `q` is a number of digits, at most `W`, so it fits its field. -/
def Response.Legal {W : Nat} (r : Response W) : Prop := (r.status ≠ .ok → r = raise r.status) ∧ r.q ≤ W

/-- 10_state.md R28: the outputs are the answer to the inputs. It holds at reset and in every state the
caller or a step makes; `State` as plain data also has states where it does not (log entry 7), and those
no run reaches. -/
def State.Settled (s : State) : Prop := s.rsp = answerTo s.cmd

/-- The output ports carry a legal response. -/
def State.Legal (s : State) : Prop := s.rsp.Legal

end Sys2Proof.Machine
end

