-- ==== Sys2Proof/Certificates/Slice0/Obligations.lean ====
section
/-! DEFINITION. The statements for the provers. Those about a response or a value hold for every width
`W`; those about `exec` and `step` are about the machine, the reference configuration. -/

open Sys2Proof Sys2Proof.Machine

/-! ### The command word and the response word -/

/-- 30_encoding.md section 6: the worked encodings decode to the commands they stand for. -/
def Obligations.WorkedEncodingsDecode : Prop :=
  decodeTableWord 48 0x00008050000 = some (.mkscheme ⟨false, 0, 8, 5, 0, 0⟩) ∧
  decodeTableWord 48 0x20008051100 = some (.decode ⟨false, 0, 8, 5, 17, 0⟩) ∧
  decodeTableWord 48 0x40008050311 = some (.add ⟨false, 0, 8, 5, 3, 17⟩) ∧
  decodeTableWord 48 0x60008050311 = some (.sub ⟨false, 0, 8, 5, 3, 17⟩) ∧
  decodeTableWord 48 0x80008060709 = some (.mul ⟨false, 0, 8, 6, 7, 9⟩) ∧
  decodeTableWord 48 0xA000806130D = some (.div ⟨false, 0, 8, 6, 19, 13⟩) ∧
  decodeTableWord 48 0xB020806130D = some (.div ⟨true, 2, 8, 6, 19, 13⟩) ∧
  decodeTableWord 48 0xE0000000000 = none

/-- R55, R57: decoding the word of a well-formed command gives the command back, every field at every
value its bits admit. -/
def Obligations.DecodeInvertsEncode : Prop :=
  ∀ i : Instr, i.WellFormed → decodeWord (encode i) = some i

/-- R58, R60: a word has one meaning at most, and it is the word of that meaning. -/
def Obligations.EncodeInvertsDecode : Prop :=
  ∀ (w : CmdWord) (i : Instr), decodeWord w = some i → i.WellFormed ∧ encode i = w

/-- R55: each field stands at its bit position, for every `W` and `DW`, and reading the fields gives them
back; in the reference configuration the top hexadecimal digit is `2·op + ke`. -/
def Obligations.CommandWordLayout : Prop :=
  (∀ (W DW : Nat) (op : BitVec 3) (f : Fields W), f.WellFormed DW →
    cmdBits W DW = 4 + 3 * DW + 2 * W ∧
    (packCmd DW op f).toNat =
      op.toNat * 2 ^ (2 * W + 3 * DW + 1) + f.ke.toNat * 2 ^ (2 * W + 3 * DW)
        + f.k * 2 ^ (2 * W + 2 * DW) + f.td * 2 ^ (2 * W + DW) + f.id * 2 ^ (2 * W)
        + f.a.toNat * 2 ^ W + f.b.toNat ∧
    opOf W DW (packCmd DW op f) = op ∧ fieldsOf W DW (packCmd DW op f) = f) ∧
  (∀ i : Instr, i.WellFormed → (encode i).toNat / 16 ^ 10 = 2 * i.op.toNat + i.fields.ke.toNat)

/-- R57: the operation codes, and the decoder's match and mask in the reference configuration. -/
def Obligations.OperationCodes : Prop :=
  (∀ f, (Instr.mkscheme f).op = 0 ∧ (Instr.decode f).op = 1 ∧ (Instr.add f).op = 2 ∧
    (Instr.sub f).op = 3 ∧ (Instr.mul f).op = 4 ∧ (Instr.div f).op = 5) ∧
  (∀ (w : CmdWord) (i : Instr), decodeWord w = some i →
    w &&& 0xE0000000000 = i.op.setWidth 44 <<< 41) ∧
  (∀ (w : CmdWord) (i : Instr), w &&& 0xE0000000000 = i.op.setWidth 44 <<< 41 →
    ∃ j, decodeWord w = some j ∧ j.op = i.op)

/-- R62: the layout of the response word for every `W` and `DW`, and reading it back; the codes 5 to 7
are no status (U15). In the reference configuration the top hexadecimal digit is `2·status + ovf`. The
`q` of a response is that of the command's own Scheme. -/
def Obligations.ResponseWordLayout : Prop :=
  (∀ r : Response Config.W, r.q < 2 ^ Config.DW →
    (r.word Config.DW).toNat / 16 ^ 4 = 2 * r.status.code.toNat + r.ovf.toNat) ∧
  (∀ (W : Nat) (op : BitVec 3) (f : Fields W), (transact op f).status = .ok →
    (transact op f).q = f.td - f.id) ∧
  ∀ (W DW : Nat),
    rspBits W DW = 4 + DW + W ∧
    (∀ r : Response W, r.q < 2 ^ DW →
      (r.word DW).toNat = r.status.code.toNat * 2 ^ (W + DW + 1) + r.ovf.toNat * 2 ^ (W + DW)
        + r.q * 2 ^ W + r.res.toNat ∧
      responseOfWord W DW (r.word DW) = some r) ∧
    (∀ v : BitVec (rspBits W DW), responseOfWord W DW v = none ↔ 5 ≤ v.toNat / 2 ^ (W + DW + 1))

/-! ### The machine: one step is one transaction -/

/-- R49, R58: a step executes the command presented at the ports, which is well formed, and changes
nothing around it: there is no program counter to move. A word that selects no operation is answered
with IllegalOp. The last clause, that `withFetchWord` stands for the caller presenting the 44-bit word
whose bits above `nbits` are dropped and that the next step executes it, is the model's choice (log
entry 4, DEDUCED), no rule of the spec. -/
def Obligations.StepRunsTheDecodedCommand : Prop :=
  (∀ (s : State) (i : Instr), decodeWord s.cmd = some i → i.WellFormed ∧ step s = exec i s) ∧
  (∀ s : State, decodeWord s.cmd = none →
    step s = .next { s with rsp := { status := .illegalOp, ovf := false, q := 0, res := 0 } }) ∧
  (∀ (s : State) (nbits w : Nat) (i : Instr), decodeTableWord nbits w = some i →
    step (s.withFetchWord nbits w) = exec i (s.withFetchWord nbits w))

/-- R66: every state steps to the one whose output ports carry the response of the total function on
command words; a reserved code is tested first, then the Scheme, then the operation is done. -/
def Obligations.StepDrivesTheTransactionResponse : Prop :=
  (∀ s : State, step s = .next { s with rsp := answerTo s.cmd }) ∧
  (∀ (W : Nat) (op : BitVec 3) (f : Fields W),
    (6 ≤ op.toNat → transact op f = raise .illegalOp) ∧
    (op.toNat < 6 → ¬ Valid W f.td f.id → transact op f = raise .invalidScheme) ∧
    (Valid W f.td f.id →
      (op = 0 → transact op f = mkschemeRsp f) ∧ (op = 1 → transact op f = decodeRsp f) ∧
      (op = 2 → transact op f = addRsp f) ∧ (op = 3 → transact op f = subRsp f) ∧
      (op = 4 → transact op f = mulRsp f) ∧ (op = 5 → transact op f = divRsp f)))

/-- R58: the operation codes 6 and 7 select no operation and are answered with IllegalOp whatever the
other fields hold; every other word is a command of an operation. -/
def Obligations.ReservedCodesAnswerIllegalOp : Prop :=
  ∀ s : State,
    (6 ≤ (opOf Config.W Config.DW s.cmd).toNat →
      decodeWord s.cmd = none ∧ step s = .next { s with rsp := raise .illegalOp }) ∧
    ((opOf Config.W Config.DW s.cmd).toNat < 6 →
      ∃ i, decodeWord s.cmd = some i ∧ i.op = opOf Config.W Config.DW s.cmd ∧
        i.fields = fieldsOf Config.W Config.DW s.cmd)

/-- R20, R23, R172, the frame of MKSCHEME, DECODE, ADD, SUB, MUL and DIV: an operation writes the output
ports and nothing else, and its response depends on nothing but the command. -/
def Obligations.ExecWritesOnlyTheOutputPorts : Prop :=
  ∀ (i : Instr) (s t : State), exec i s = .next t →
    t.cmd = s.cmd ∧ ∀ s' : State, exec i s' = .next { s' with rsp := t.rsp }

/-- R43: a command is idempotent: presented again it gives the same response and changes nothing. -/
def Obligations.StepIsIdempotent : Prop :=
  ∀ s t : State, step s = .next t → step t = .next t

/-- R20, R46: a sequence of commands is answered command by command, whatever was executed before; in
another order each command gets the same response. -/
def Obligations.CommandsAreAnsweredIndependently : Prop :=
  (∀ (ws : List CmdWord) (s : State), (serve ws s).1 = ws.map answerTo) ∧
  (∀ (ws vs : List CmdWord) (s t : State), ws.Perm vs →
    (ws.zip (serve ws s).1).Perm (vs.zip (serve vs t).1))

/-- R63, R13: every response of every operation and of a reserved code is legal: nothing beside the
status of an error, and a count of digits that fits its field. -/
def Obligations.EveryAnswerIsLegal : Prop :=
  ∀ (W DW : Nat) (op : BitVec 3) (f : Fields W), Config.Legal W DW →
    (transact op f).Legal ∧ (transact op f).q < 2 ^ DW ∧
    ((transact op f).status = .ok → (transact op f).q = f.td - f.id)

/-- The invariant of the output ports: they carry a legal response which is the answer to the input
ports, as 10_state.md R28 says of every instant: as soon as the caller presents a command, after every
step, and after any sequence of commands. A step changes nothing where it holds. That `State` also has
states where the outputs do not follow the inputs, and that a step settles those too (second clause), is
the model's choice (log entry 7, DESIGN CHOICE), no rule of the spec: no run reaches them. -/
def Obligations.OutputPortsStayLegal : Prop :=
  (∀ (s : State) (w : CmdWord), (s.present w).Legal ∧ (s.present w).Settled) ∧
  (∀ s t : State, s.Legal → step s = .next t → t.Legal ∧ t.Settled) ∧
  (∀ s t : State, s.Settled → step s = .next t → t.Settled ∧ t = s) ∧
  (∀ (ws : List CmdWord) (s : State), s.Legal → (serve ws s).2.Legal ∧ (s.Settled → (serve ws s).2.Settled))

/-- Log entry 2 (the model's choice of the word at the ports): the ports at reset meet the invariant. -/
def Obligations.ResetPortsAreLegalAndSettled : Prop :=
  State.reset.Legal ∧ State.reset.Settled

/-! ### Errors -/

/-- R165 to R169, R171: which status a command gets, exactly, and its code; an error records nothing
beyond its code. -/
def Obligations.StatusOfEveryCommand : Prop :=
  (∀ (W : Nat) (op : BitVec 3) (f : Fields W),
    ((transact op f).status = .illegalOp ↔ 6 ≤ op.toNat) ∧
    ((transact op f).status = .invalidScheme ↔
      op.toNat < 6 ∧ (f.td = 0 ∨ W < f.td ∨ f.td < f.id)) ∧
    ((transact op f).status = .divisionByZero ↔ op = 5 ∧ Valid W f.td f.id ∧ M f.td f.b = 0) ∧
    ((transact op f).status = .invalidPrecision ↔
      op = 5 ∧ Valid W f.td f.id ∧ M f.td f.b ≠ 0 ∧ f.ke = true ∧ f.td - f.id < f.k) ∧
    ((transact op f).status ≠ .ok →
      transact op f = { status := (transact op f).status, ovf := false, q := 0, res := 0 })) ∧
  (∀ e : Status, e.code.toNat ≤ 4) ∧
  Status.ok.code = 0 ∧ Status.invalidScheme.code = 1 ∧ Status.divisionByZero.code = 2 ∧
  Status.invalidPrecision.code = 3 ∧ Status.illegalOp.code = 4

/-- R172, R173: an error leaves everything but the response as it was, and the same command fails the
same way in any state. -/
def Obligations.ErrorsHaveNoPartialEffect : Prop :=
  ∀ (i : Instr) (s t : State), exec i s = .next t → t.rsp.status ≠ .ok →
    t = { s with rsp := { status := t.rsp.status, ovf := false, q := 0, res := 0 } } ∧
    ∀ u : State, exec i u = .next { u with rsp := t.rsp }

/-! ### Fields and container bits that are not read -/

/-- R59: the fields an operation ignores, and the container bits at or above `td`, make no difference. -/
def Obligations.IgnoredFieldsMakeNoDifference : Prop :=
  (∀ (f g : Fields Config.W) (s : State), f.td = g.td → f.id = g.id →
    exec (.mkscheme f) s = exec (.mkscheme g) s ∧
    (M f.td f.a = M g.td g.a →
      exec (.decode f) s = exec (.decode g) s ∧
      (M f.td f.b = M g.td g.b →
        exec (.add f) s = exec (.add g) s ∧ exec (.sub f) s = exec (.sub g) s ∧
        exec (.mul f) s = exec (.mul g) s ∧
        (f.ke = g.ke → (f.ke = true → f.k = g.k) → exec (.div f) s = exec (.div g) s)))) ∧
  (∀ s t : State, 6 ≤ (opOf Config.W Config.DW s.cmd).toNat → 6 ≤ (opOf Config.W Config.DW t.cmd).toNat →
    answerTo s.cmd = answerTo t.cmd) ∧
  (∀ (i : Instr) (s : State), exec (zeroIgnored i) s = exec i s)

/-- R23: container bits at or above `td` are ignored on input and zero on output, for every width; and
the command's own fields are not changed. -/
def Obligations.ContainerBitsAboveTheScheme : Prop :=
  (∀ (W : Nat) (op : BitVec 3) (f : Fields W), transact op (maskContainers f) = transact op f) ∧
  (∀ (W : Nat) (op : BitVec 3) (f : Fields W), 2 ≤ op.toNat → (transact op f).status = .ok →
    ∀ i, f.td ≤ i → (transact op f).res.getLsbD i = false) ∧
  (∀ s t : State, step s = .next t → t.cmd = s.cmd)

/-- R25, R170: `ovf` of every response, for every width; an overflow changes neither the status nor the
wrapped result. -/
def Obligations.OverflowOutput : Prop :=
  ∀ (W : Nat) (op : BitVec 3) (f : Fields W),
    ((transact op f).status ≠ .ok → (transact op f).ovf = false) ∧
    (op.toNat < 2 → (transact op f).ovf = false) ∧
    ((transact op f).status = .ok → 2 ≤ op.toNat →
      ∃ z : Int, (op = 2 → z = S f.td f.a + S f.td f.b) ∧ (op = 3 → z = S f.td f.a - S f.td f.b) ∧
        (op = 4 → z = mulExact f) ∧ (op = 5 → z = divExact f (kEff f)) ∧
        ((transact op f).ovf = true ↔ z < -2 ^ (f.td - 1) ∨ 2 ^ (f.td - 1) ≤ z) ∧
        ((transact op f).res.toNat : Int) = z % 2 ^ f.td)

/-! ### The Scheme and decode -/

/-- R80: which Schemes are valid, as MKSCHEME tells it, and how many there are; 44 for `W = 8`. -/
def Obligations.ValidSchemes : Prop :=
  (∀ (f : Fields Config.W) (s t : State), exec (.mkscheme f) s = .next t →
    (t.rsp.status = .ok ↔ 1 ≤ f.td ∧ f.td ≤ Config.W ∧ f.id ≤ f.td)) ∧
  (∀ W DW : Nat, W < 2 ^ DW →
    ((Finset.range (2 ^ DW) ×ˢ Finset.range (2 ^ DW)).filter fun p => Valid W p.1 p.2).card
      = ∑ td ∈ Finset.Icc 1 W, (td + 1)) ∧
  ∑ td ∈ Finset.Icc 1 8, (td + 1) = 44

/-- R82: MKSCHEME answers the derived `q` of a valid Scheme and fails on any other. -/
def Obligations.MkschemeChecksTheScheme : Prop :=
  ∀ (f : Fields Config.W) (s : State),
    (Valid Config.W f.td f.id → exec (.mkscheme f) s =
      .next { s with rsp := { status := .ok, ovf := false, q := f.td - f.id, res := 0 } }) ∧
    (¬ Valid Config.W f.td f.id → exec (.mkscheme f) s =
      .next { s with rsp := { status := .invalidScheme, ovf := false, q := 0, res := 0 } })

/-- R83, R26: DECODE answers the numerator `S(a)` in two's complement and the exponent `q`, and what the
caller reads in that response is the decoded value. -/
def Obligations.DecodeAnswersTheDecodedValue : Prop :=
  ∀ (f : Fields Config.W) (s : State),
    (Valid Config.W f.td f.id →
      ∃ r : Response Config.W, exec (.decode f) s = .next { s with rsp := r } ∧
        r.status = .ok ∧ r.ovf = false ∧ r.q = f.td - f.id ∧ r.res.toInt = S f.td f.a ∧
        (∀ j, j < f.td → r.res.getLsbD j = f.a.getLsbD j) ∧
        reportedValue r = V f.td f.id f.a) ∧
    (¬ Valid Config.W f.td f.id → exec (.decode f) s =
      .next { s with rsp := { status := .invalidScheme, ovf := false, q := 0, res := 0 } })

/-- R84: the weighted sum of the bits is the closed form. -/
def Obligations.DecodedValueIsTheWeightedSum : Prop :=
  ∀ (W td id : Nat) (x : BitVec W), Valid W td id →
    decodeSum td id x = (S td x : ℚ) / 2 ^ (td - id) ∧
    (S td x : ℚ) = -bitVal x (td - 1) * 2 ^ (td - 1)
      + ∑ i ∈ Finset.range (td - 1), bitVal x i * 2 ^ i

/-- R85: the source's loop computes the decoded value. -/
def Obligations.DecodeLoopComputesTheValue : Prop :=
  ∀ (W td id : Nat) (x : BitVec W), Valid W td id → decodeLoop td id x = V td id x

/-- R86: the edge Schemes follow the general rule. -/
def Obligations.EdgeSchemes : Prop :=
  (∀ (W td : Nat) (x : BitVec W), Valid W td 0 →
    decodeSum td 0 x = V td 0 x ∧ -(1 / 2) ≤ V td 0 x ∧ V td 0 x ≤ 1 / 2 - 1 / 2 ^ td) ∧
  (∀ (W td : Nat) (x : BitVec W), Valid W td td → V td td x = S td x) ∧
  (∀ (W : Nat) (x : BitVec W), 1 ≤ W → V 1 1 x = -bitVal x 0 ∧ V 1 0 x = -bitVal x 0 / 2) ∧
  (∀ (W td : Nat) (x : BitVec W), Valid W td 1 →
    -1 ≤ V td 1 x ∧ V td 1 x ≤ 1 - 1 / 2 ^ (td - 1))

/-- R87: the decoded values are the multiples of the granularity in the representable range, each of
one container of `td` bits. -/
def Obligations.DecodedValuesFillTheRange : Prop :=
  ∀ W td id : Nat, Valid W td id →
    (∀ x : BitVec W, Representable td id (V td id x) ∧
      ∃ n : Int, V td id x = n * granularity td id) ∧
    (∀ n : Int, Representable td id (n * granularity td id) →
      ∃ x : BitVec W, x.toNat < 2 ^ td ∧ V td id x = n * granularity td id ∧
        ∀ y : BitVec W, y.toNat < 2 ^ td → V td id y = n * granularity td id → y = x)

/-! ### Value functions -/

/-- 00_scope.md R11: the value functions of a container, for every width. -/
def Obligations.ValueFunctions : Prop :=
  ∀ (W td : Nat) (x : BitVec W) (z : Int), 1 ≤ td → td ≤ W →
    M td x < 2 ^ td ∧ S td x % 2 ^ td = M td x ∧
    -2 ^ (td - 1) ≤ S td x ∧ S td x ≤ 2 ^ (td - 1) - 1 ∧
    (sign td x = true ↔ S td x < 0) ∧
    ((narrow W td z).toNat : Int) = z % 2 ^ td ∧
    (InRange td z ↔ S td (narrow W td z) = z)

/-- R12: the integer division and the shifts. -/
def Obligations.DivisionAndShifts : Prop :=
  (∀ n d : Int, d ≠ 0 → tdiv n d = n.sign * d.sign * ⌊(|n| : ℚ) / |d|⌋) ∧
  (∀ (z : Int) (s : Nat), shl z s = z * 2 ^ s) ∧
  (∀ (z : Int) (s : Nat), asr z s = ⌊(z : ℚ) / 2 ^ s⌋) ∧
  (∀ d : Int, d ≠ 0 → tdiv 0 d = 0) ∧ tdiv 7 2 = 3 ∧ tdiv (-7) 2 = -3 ∧ tdiv 7 (-2) = -3 ∧ tdiv (-7) (-2) = 3 ∧
  asr (-63) 2 = -16 ∧ asr 63 2 = 15 ∧ asr (-1) 2 = -1

/-! ### Addition and subtraction -/

/-- R101: ADD, its result also in the source's form on unsigned containers, and its overflow output also
as a fact about decoded values. -/
def Obligations.AddAnswersTheWrappedSum : Prop :=
  ∀ (f : Fields Config.W) (s : State),
    (Valid Config.W f.td f.id →
      ∃ r : Response Config.W, exec (.add f) s = .next { s with rsp := r } ∧
        r.status = .ok ∧ r.q = f.td - f.id ∧ r.res = narrow Config.W f.td (S f.td f.a + S f.td f.b) ∧
        r.res.toNat = (M f.td f.a + M f.td f.b) % 2 ^ f.td ∧
        r.res.toNat = (f.a.toNat + f.b.toNat) % 2 ^ Config.W % 2 ^ f.td ∧
        (r.ovf = true ↔ ¬ InRange f.td (S f.td f.a + S f.td f.b)) ∧
        (r.ovf = true ↔ ¬ Representable f.td f.id (V f.td f.id f.a + V f.td f.id f.b))) ∧
    (¬ Valid Config.W f.td f.id → exec (.add f) s =
      .next { s with rsp := { status := .invalidScheme, ovf := false, q := 0, res := 0 } })

/-- R102: SUB, in the same forms. -/
def Obligations.SubAnswersTheWrappedDifference : Prop :=
  ∀ (f : Fields Config.W) (s : State),
    (Valid Config.W f.td f.id →
      ∃ r : Response Config.W, exec (.sub f) s = .next { s with rsp := r } ∧
        r.status = .ok ∧ r.q = f.td - f.id ∧ r.res = narrow Config.W f.td (S f.td f.a - S f.td f.b) ∧
        (r.res.toNat : Int) = ((M f.td f.a : Int) - M f.td f.b) % 2 ^ f.td ∧
        (r.ovf = true ↔ ¬ InRange f.td (S f.td f.a - S f.td f.b)) ∧
        (r.ovf = true ↔ ¬ Representable f.td f.id (V f.td f.id f.a - V f.td f.id f.b))) ∧
    (¬ Valid Config.W f.td f.id → exec (.sub f) s =
      .next { s with rsp := { status := .invalidScheme, ovf := false, q := 0, res := 0 } })

/-- R100: the result and the overflow output of ADD and SUB do not depend on `integer_digits`, and the
response repeats the command's own `q`. -/
def Obligations.AddSubIgnoreTheBinaryPoint : Prop :=
  ∀ (W : Nat) (f g : Fields W), ValidScheme f → ValidScheme g → f.td = g.td → f.a = g.a → f.b = g.b →
    (addRsp f).res = (addRsp g).res ∧ (addRsp f).ovf = (addRsp g).ovf ∧
    (subRsp f).res = (subRsp g).res ∧ (subRsp f).ovf = (subRsp g).ovf ∧
    (addRsp f).q = f.td - f.id ∧ (subRsp f).q = f.td - f.id

/-- R103: without overflow the result is the exact sum or difference. -/
def Obligations.AddSubExactWithoutOverflow : Prop :=
  ∀ (W : Nat) (f : Fields W), ValidScheme f →
    ((addRsp f).ovf = false →
      V f.td f.id (addRsp f).res = V f.td f.id f.a + V f.td f.id f.b) ∧
    ((subRsp f).ovf = false →
      V f.td f.id (subRsp f).res = V f.td f.id f.a - V f.td f.id f.b)

/-- R104: an overflowed sum or difference reads back off by exactly one wrap, and is still OK. -/
def Obligations.AddSubOverflowIsOneWrap : Prop :=
  ∀ (W : Nat) (f : Fields W), ValidScheme f →
    ((addRsp f).ovf = true →
      (addRsp f).status = .ok ∧
      (0 < V f.td f.id f.a + V f.td f.id f.b →
        V f.td f.id (addRsp f).res = V f.td f.id f.a + V f.td f.id f.b - 2 ^ f.id) ∧
      (V f.td f.id f.a + V f.td f.id f.b < 0 →
        V f.td f.id (addRsp f).res = V f.td f.id f.a + V f.td f.id f.b + 2 ^ f.id)) ∧
    ((subRsp f).ovf = true →
      (subRsp f).status = .ok ∧
      (0 < V f.td f.id f.a - V f.td f.id f.b →
        V f.td f.id (subRsp f).res = V f.td f.id f.a - V f.td f.id f.b - 2 ^ f.id) ∧
      (V f.td f.id f.a - V f.td f.id f.b < 0 →
        V f.td f.id (subRsp f).res = V f.td f.id f.a - V f.td f.id f.b + 2 ^ f.id))

/-- R105: ADD is commutative, and associative on results; SUB is ADD of the negative; SUB undoes ADD. -/
def Obligations.AdderLaws : Prop :=
  ∀ (W : Nat) (f : Fields W) (c : BitVec W), ValidScheme f →
    ((addRsp { f with a := f.b, b := f.a }).res = (addRsp f).res ∧
      (addRsp { f with a := f.b, b := f.a }).ovf = (addRsp f).ovf) ∧
    (addRsp { f with a := (addRsp f).res, b := c }).res
      = (addRsp { f with b := (addRsp { f with a := f.b, b := c }).res }).res ∧
    ((subRsp f).res = (addRsp { f with b := narrow W f.td (-S f.td f.b) }).res ∧
      (S f.td f.b ≠ -2 ^ (f.td - 1) →
        (subRsp f).ovf = (addRsp { f with b := narrow W f.td (-S f.td f.b) }).ovf)) ∧
    (subRsp { f with a := (addRsp f).res }).res.toNat = M f.td f.a

/-! ### Scale adjustment and multiplication -/

/-- R116, R117, R118: the three shifts. The post-multiply shift rounds toward negative infinity: it
agrees with truncation but on a negative product that is no multiple of `2^q`, where it is one less. -/
def Obligations.ScaleShifts : Prop :=
  (∀ (W : Nat) (f : Fields W) (k : Nat), ValidScheme f → k ≤ f.td - f.id →
    preDiv (S f.td f.a) k = S f.td f.a * 2 ^ k ∧
    -2 ^ (2 * W - 1) ≤ preDiv (S f.td f.a) k ∧ preDiv (S f.td f.a) k ≤ 2 ^ (2 * W - 1) - 1) ∧
  (∀ (p : Int) (q : Nat),
    postMul p q * 2 ^ q ≤ p ∧ p < (postMul p q + 1) * 2 ^ q ∧
    ((0 ≤ p ∨ (2 : Int) ^ q ∣ p) → postMul p q = tdiv p (2 ^ q)) ∧
    (p < 0 → ¬ (2 : Int) ^ q ∣ p → postMul p q = tdiv p (2 ^ q) - 1) ∧
    postMul p 0 = p) ∧
  (∀ (quot : Int) (s : Nat),
    postDiv quot s = quot * 2 ^ s ∧ (2 : Int) ^ s ∣ postDiv quot s ∧ postDiv quot 0 = quot)

/-- R131: MUL. For operands whose sign bit is clear it is the source's plain product shifted right; with
`id = 0` it cannot overflow. -/
def Obligations.MulAnswersTheShiftedProduct : Prop :=
  ∀ (f : Fields Config.W) (s : State),
    (Valid Config.W f.td f.id →
      ∃ (r : Response Config.W) (z : Int), exec (.mul f) s = .next { s with rsp := r } ∧
        z = ⌊((S f.td f.a * S f.td f.b : Int) : ℚ) / 2 ^ (f.td - f.id)⌋ ∧
        |S f.td f.a * S f.td f.b| ≤ 2 ^ (2 * f.td - 2) ∧
        r.status = .ok ∧ r.q = f.td - f.id ∧ r.res = narrow Config.W f.td z ∧
        (r.ovf = true ↔ z < -2 ^ (f.td - 1) ∨ 2 ^ (f.td - 1) - 1 < z) ∧
        (sign f.td f.a = false → sign f.td f.b = false →
          r.res.toNat = M f.td f.a * M f.td f.b / 2 ^ (f.td - f.id) % 2 ^ f.td) ∧
        (f.id = 0 → r.ovf = false ∧ |z| * 4 ≤ 2 ^ f.td)) ∧
    (¬ Valid Config.W f.td f.id → exec (.mul f) s =
      .next { s with rsp := { status := .invalidScheme, ovf := false, q := 0, res := 0 } })

/-- R132: without overflow MUL gives the true product rounded down to a multiple of the granularity. -/
def Obligations.MulRoundsDown : Prop :=
  ∀ (W : Nat) (f : Fields W), ValidScheme f → (mulRsp f).ovf = false →
    V f.td f.id (mulRsp f).res
      = ⌊V f.td f.id f.a * V f.td f.id f.b * 2 ^ (f.td - f.id)⌋ / 2 ^ (f.td - f.id) ∧
    0 ≤ V f.td f.id f.a * V f.td f.id f.b - V f.td f.id (mulRsp f).res ∧
    V f.td f.id f.a * V f.td f.id f.b - V f.td f.id (mulRsp f).res < granularity f.td f.id ∧
    (V f.td f.id (mulRsp f).res = V f.td f.id f.a * V f.td f.id f.b ↔
      (2 : Int) ^ (f.td - f.id) ∣ S f.td f.a * S f.td f.b)

/-- R133: signs and zero of a product, commutativity, the unit. -/
def Obligations.MulSignsAndUnit : Prop :=
  (∀ (W : Nat) (f : Fields W), ValidScheme f →
    (0 < S f.td f.a * S f.td f.b → 0 ≤ mulExact f) ∧
    (S f.td f.a * S f.td f.b < 0 → mulExact f ≤ -1) ∧
    (S f.td f.a * S f.td f.b = 0 → mulExact f = 0) ∧
    mulRsp { f with a := f.b, b := f.a } = mulRsp f ∧
    (2 ≤ f.id → V f.td f.id (BitVec.ofNat W (2 ^ (f.td - f.id))) = 1 ∧
      (mulRsp { f with b := BitVec.ofNat W (2 ^ (f.td - f.id)) }).res.toNat = M f.td f.a ∧
      (mulRsp { f with b := BitVec.ofNat W (2 ^ (f.td - f.id)) }).ovf = false) ∧
    (f.id ≤ 1 → (∀ x : BitVec W, V f.td f.id x ≠ 1) ∧
      ¬ ∃ e : BitVec W, ∀ x : BitVec W, (mulRsp { f with a := x, b := e }).res.toNat = M f.td x ∧
        (mulRsp { f with a := x, b := e }).ovf = false)) ∧
  (∃ (f : Fields Config.W) (c : BitVec Config.W), ValidScheme f ∧
    (mulRsp { f with a := (mulRsp f).res, b := c }).res
      ≠ (mulRsp { f with b := (mulRsp { f with a := f.b, b := c }).res }).res)

/-- R134: the exact product never overflows its double width, so only the narrowing can lose high bits;
with `id = 1` the one overflow of MUL is `(-1) × (-1)`. -/
def Obligations.MulOverflow : Prop :=
  ∀ (W : Nat) (f : Fields W), ValidScheme f →
    |S f.td f.a * S f.td f.b| ≤ 2 ^ (2 * f.td - 2) ∧ (2 : Int) ^ (2 * f.td - 2) < 2 ^ (2 * W - 1) ∧
    (mulRsp f).status = .ok ∧ ((mulRsp f).res.toNat : Int) = mulExact f % 2 ^ f.td ∧
    ((mulRsp f).ovf = true ↔ ¬ InRange f.td (mulExact f)) ∧
    (f.id = 1 →
      ((mulRsp f).ovf = true ↔ S f.td f.a = -2 ^ (f.td - 1) ∧ S f.td f.b = -2 ^ (f.td - 1)) ∧
      ((mulRsp f).ovf = true → mulExact f = 2 ^ (f.td - 1) ∧ (mulRsp f).res.toNat = 2 ^ (f.td - 1)))

/-! ### Division -/

/-- R146: DIV, its errors in their order. -/
def Obligations.DivAnswersTheAlignedQuotient : Prop :=
  ∀ (f : Fields Config.W) (s : State),
    (¬ Valid Config.W f.td f.id → exec (.div f) s =
      .next { s with rsp := { status := .invalidScheme, ovf := false, q := 0, res := 0 } }) ∧
    (Valid Config.W f.td f.id → M f.td f.b = 0 → exec (.div f) s =
      .next { s with rsp := { status := .divisionByZero, ovf := false, q := 0, res := 0 } }) ∧
    (Valid Config.W f.td f.id → M f.td f.b ≠ 0 →
      ∀ k : Nat, k = (if f.ke = true then f.k else f.td - f.id) →
        (f.td - f.id < k → exec (.div f) s =
          .next { s with rsp := { status := .invalidPrecision, ovf := false, q := 0, res := 0 } }) ∧
        (k ≤ f.td - f.id →
          ∃ (r : Response Config.W) (z : Int), exec (.div f) s = .next { s with rsp := r } ∧
            z = tdiv (S f.td f.a * 2 ^ k) (S f.td f.b) * 2 ^ (f.td - f.id - k) ∧
            r.status = .ok ∧ r.q = f.td - f.id ∧ r.res = narrow Config.W f.td z ∧
            (r.ovf = true ↔ z < -2 ^ (f.td - 1) ∨ 2 ^ (f.td - 1) - 1 < z)))

/-- R145: the two formulas of the source are the pre-scales `k = 0` and `k = q`; they place the point alike
and differ in value (90_conflicts.md C5). R145 is about a valid Scheme and a nonzero divisor; that the
first clause holds of all other fields too is the model's choice (log entry 10, DESIGN CHOICE). -/
def Obligations.SourceFormulasAreInstances : Prop :=
  (∀ (W : Nat) (f : Fields W),
    divExact f 0 = tdiv (S f.td f.a) (S f.td f.b) * 2 ^ (f.td - f.id) ∧
    divExact f (f.td - f.id) = tdiv (S f.td f.a * 2 ^ (f.td - f.id)) (S f.td f.b)) ∧
  (∃ f : Fields Config.W, ValidScheme f ∧ divExact f 0 = 4 ∧ divExact f (f.td - f.id) = 5 ∧
    V f.td f.id (narrow Config.W f.td 4) = 1 ∧ V f.td f.id (narrow Config.W f.td 5) = 5 / 4)

/-- R147: without `precision_bits` the pre-scale is the full one of the Scheme. -/
def Obligations.OmittedPrecisionIsFull : Prop :=
  ∀ (W : Nat) (f : Fields W),
    (f.ke = true → kEff f = f.k) ∧ (ValidScheme f → f.ke = false → kEff f + f.id = f.td) ∧
    divRsp { f with ke := false } = divRsp { f with ke := true, k := f.td - f.id }

/-- R149: a pre-scale above `q` is refused and nothing is computed; up to `q` it is legal. -/
def Obligations.PrecisionAboveFractionDigitsFails : Prop :=
  ∀ (W : Nat) (f : Fields W), ValidScheme f → M f.td f.b ≠ 0 →
    (f.ke = true → f.td - f.id < f.k → divRsp f = raise .invalidPrecision) ∧
    (f.ke = false → (divRsp f).status = .ok) ∧
    (f.ke = true → f.k ≤ f.td - f.id → (divRsp f).status = .ok)

/-- R150: DIV fails with DivisionByZero exactly when the divisor decodes to zero, for every dividend and
every precision. -/
def Obligations.DivisionByZeroExactly : Prop :=
  ∀ (W : Nat) (f : Fields W), ValidScheme f →
    (M f.td f.b = 0 → divRsp f = raise .divisionByZero) ∧
    ((divRsp f).status = .divisionByZero → M f.td f.b = 0) ∧
    (M f.td f.b = 0 ↔ S f.td f.b = 0) ∧ (M f.td f.b = 0 ↔ V f.td f.id f.b = 0) ∧
    (M f.td f.b = 0 ↔ ∀ j, j < f.td → f.b.getLsbD j = false)

/-- R151: without overflow DIV gives the true quotient truncated toward zero to a multiple of
`2^(-k_eff)`. -/
def Obligations.DivTruncatesTowardZero : Prop :=
  ∀ (W : Nat) (f : Fields W) (k : Nat), ValidScheme f → M f.td f.b ≠ 0 → kEff f = k →
    k ≤ f.td - f.id → (divRsp f).ovf = false →
    V f.td f.id (divRsp f).res = (tdiv (S f.td f.a * 2 ^ k) (S f.td f.b) : ℚ) / 2 ^ k ∧
    V f.td f.id f.a / V f.td f.id f.b = (S f.td f.a : ℚ) / S f.td f.b ∧
    0 ≤ V f.td f.id (divRsp f).res * (V f.td f.id f.a / V f.td f.id f.b) ∧
    |V f.td f.id (divRsp f).res| ≤ |V f.td f.id f.a / V f.td f.id f.b| ∧
    |V f.td f.id f.a / V f.td f.id f.b| - |V f.td f.id (divRsp f).res| < 1 / 2 ^ k

/-- R152: more pre-scale is never worse. -/
def Obligations.MorePreScaleIsNeverWorse : Prop :=
  ∀ (W : Nat) (f : Fields W) (k1 k2 : Nat), ValidScheme f → M f.td f.b ≠ 0 →
    k1 ≤ k2 → k2 ≤ f.td - f.id →
    0 ≤ divExact f k1 * divExact f k2 ∧ |divExact f k1| ≤ |divExact f k2| ∧
    (|divExact f k2| : ℚ) ≤ |(S f.td f.a : ℚ) * 2 ^ (f.td - f.id) / S f.td f.b| ∧
    ((divRsp { f with ke := true, k := k1 }).ovf = false →
      (divRsp { f with ke := true, k := k2 }).ovf = false →
      |V f.td f.id f.a / V f.td f.id f.b - V f.td f.id (divRsp { f with ke := true, k := k2 }).res|
        ≤ |V f.td f.id f.a / V f.td f.id f.b
            - V f.td f.id (divRsp { f with ke := true, k := k1 }).res|)

/-- R153: the signs of a quotient, and its symmetry under negation of an operand. -/
def Obligations.DivSigns : Prop :=
  (∀ n d : Int, d ≠ 0 →
    (0 ≤ n * d → 0 ≤ tdiv n d) ∧ (n * d ≤ 0 → tdiv n d ≤ 0) ∧ (tdiv n d = 0 ↔ |n| < |d|) ∧
    tdiv (-n) d = -tdiv n d ∧ tdiv n (-d) = -tdiv n d) ∧
  (∀ (W : Nat) (f : Fields W) (a' b' : BitVec W) (k : Nat), ValidScheme f → M f.td f.b ≠ 0 →
    k ≤ f.td - f.id →
    (S f.td a' = -S f.td f.a → divExact { f with a := a' } k = -divExact f k) ∧
    (S f.td b' = -S f.td f.b → divExact { f with b := b' } k = -divExact f k) ∧
    (S f.td a' = -S f.td f.a → S f.td b' = -S f.td f.b →
      divExact { f with a := a', b := b' } k = divExact f k)) ∧
  (∀ (W td : Nat) (x : BitVec W), 1 ≤ td → td ≤ W →
    ((∃ y : BitVec W, S td y = -S td x) ↔ S td x ≠ -2 ^ (td - 1)))

/-- R154: a quotient outside the range wraps and is still OK. With `q = 0` only the most negative value
divided by minus one does so. -/
def Obligations.QuotientOverflow : Prop :=
  ∀ (W : Nat) (f : Fields W), ValidScheme f → M f.td f.b ≠ 0 → kEff f ≤ f.td - f.id →
    (divRsp f).status = .ok ∧ (divRsp f).res = narrow W f.td (divExact f (kEff f)) ∧
    ((divRsp f).ovf = true ↔ ¬ InRange f.td (divExact f (kEff f))) ∧
    (f.id = f.td →
      ((divRsp f).ovf = true ↔ S f.td f.a = -2 ^ (f.td - 1) ∧ S f.td f.b = -1))

/-! ### The blocks -/

/-- R34: every intermediate value fits a signed number of `2W + 1` bits; those of the division for the
nonzero divisors it is done with (for a zero one see `Obligations.ValuesOutsideTheirDomain`). -/
def Obligations.InternalWidths : Prop :=
  ∀ (W : Nat) (f : Fields W) (k : Nat), ValidScheme f → k ≤ f.td - f.id →
    |S f.td f.a| ≤ 2 ^ (f.td - 1) ∧ (2 : Int) ^ (f.td - 1) ≤ 2 ^ (W - 1) ∧
    |S f.td f.a * S f.td f.b| ≤ 2 ^ (2 * W - 2) ∧
    |shl (S f.td f.a) k| ≤ 2 ^ (f.td - 1 + (f.td - f.id)) ∧
    (2 : Int) ^ (f.td - 1 + (f.td - f.id)) ≤ 2 ^ (2 * W - 1) ∧
    shl (S f.td f.a) k ≠ 2 ^ (2 * W - 1) ∧
    (M f.td f.b ≠ 0 →
      |tdiv (shl (S f.td f.a) k) (S f.td f.b)| ≤ |shl (S f.td f.a) k| ∧
      |divExact f k| ≤ |S f.td f.a| * 2 ^ (f.td - f.id)) ∧
    |S f.td f.a| * 2 ^ (f.td - f.id) ≤ 2 ^ (2 * W - 1)

/-- R28 to R33: the blocks, composed at their own widths, compute the response word, for every legal
configuration and every command word. -/
def Obligations.BlocksComputeTheResponseWord : Prop :=
  ∀ W DW : Nat, Config.Legal W DW → ∀ w : BitVec (cmdBits W DW),
    blocksWord W DW w = (transactWord W DW w).word DW

/-! ### Implementations with latency, scripts, the assembler -/

/-- What R188 and R47 promise of the queue of log entry 5, which is the model's choice (DEDUCED). An event
other than a reset, from any state of the link, keeps for every caller what it has received followed by
the answers to its commands in flight, and adds the answer to the command it accepts, if it accepts one:
nothing is lost, doubled, reordered or given to another caller. At power-up there is nothing; so along
every history without a reset the responses received and awaited are the answers in order. -/
def Obligations.ResponsesComeBackInOrder : Prop :=
  (∀ (l : Link) (e : LinkEvent) (c : Nat), e ≠ LinkEvent.reset →
    (l.after e).received c ++ ((l.after e).waiting c).map answerTo
      = l.received c ++ (l.waiting c).map answerTo ++ (accepted c [e]).map answerTo) ∧
  (∀ c : Nat, Link.empty.received c = [] ∧ Link.empty.waiting c = []) ∧
  (∀ (es : List LinkEvent) (c : Nat), LinkEvent.reset ∉ es →
    (Link.empty.run es).received c ++ ((Link.empty.run es).waiting c).map answerTo
      = (accepted c es).map answerTo)

/-- What R185 says of a reset, for the queue of log entry 5, which is the model's choice (DEDUCED): a reset
drops the commands in flight, which get no response, and nothing else: what is accepted afterwards is
answered as from power-up. -/
def Obligations.ResetDropsCommandsInFlight : Prop :=
  ∀ (es fs : List LinkEvent) (c : Nat) (w : CmdWord),
    (Link.empty.run (es ++ LinkEvent.reset :: fs)).received c
      = (Link.empty.run es).received c ++ (Link.empty.run fs).received c ∧
    (Link.empty.run (es ++ LinkEvent.reset :: fs)).waiting c = (Link.empty.run fs).waiting c ∧
    (Link.empty.run (es ++ [.reset, .accept c w, .answer c])).received c
      = (Link.empty.run es).received c ++ [answerTo w]

/-- R67: a line that is read as a command gives a well-formed one, with every field its operation ignores
zero, and `ke` set only in a DIV. The operands stand in the order `td, id, a, b, k`, a mnemonic takes the
operands R67 lists for it and no others, and `ke = 1` exactly when there is a fifth, which only DIV has.
Which literals are counts and containers is the model's choice (log entry 6, DESIGN CHOICE). -/
def Obligations.AssemblerZeroesIgnoredFields : Prop :=
  (∀ (line : List Char) (i : Instr), assemble line = some i →
    i.WellFormed ∧ zeroIgnored i = i ∧ (i.fields.ke = true → i.op = 5)) ∧
  (∀ (td id k : Nat) (a b : BitVec Config.W) (ltd lid la lb lk : Literal),
    ltd.count = some td → lid.count = some id → la.container td id = some a →
    lb.container td id = some b → lk.count = some k →
    assembleFields [ltd, lid] = some ⟨false, 0, td, id, 0, 0⟩ ∧
    assembleFields [ltd, lid, la] = some ⟨false, 0, td, id, a, 0⟩ ∧
    assembleFields [ltd, lid, la, lb] = some ⟨false, 0, td, id, a, b⟩ ∧
    assembleFields [ltd, lid, la, lb, lk] = some ⟨true, k, td, id, a, b⟩) ∧
  (∀ (td id v : Nat) (p : Option Nat), v < 2 ^ 8 →
    (Literal.mk v none).count = some v ∧
    (p = none ∨ p = some (td - id) → (Literal.mk v p).container td id = some (BitVec.ofNat 8 v))) ∧
  (∀ (m : List Char) (n : Nat) (mk : Fields Config.W → Instr), operationOf m n = some mk ↔
    (m = "MKSCHEME".toList ∧ n = 2 ∧ mk = Instr.mkscheme) ∨ (m = "DECODE".toList ∧ n = 3 ∧ mk = Instr.decode) ∨
    (m = "ADD".toList ∧ n = 4 ∧ mk = Instr.add) ∨ (m = "SUB".toList ∧ n = 4 ∧ mk = Instr.sub) ∨
    (m = "MUL".toList ∧ n = 4 ∧ mk = Instr.mul) ∨
    (m = "DIV".toList ∧ (n = 4 ∨ n = 5) ∧ mk = Instr.div))

/-- R68, R46: a script of commands with numbers for operands keeps, under their names, the responses the
machine gives when the same words are presented to it one at a time. With any operands and any stop
lines, what a script adds is the machine's responses to some command words, under the names of its
first lines that send, in order; and a script goes on where its sending lines end. That a number too large
for its field is sent as its low bits, as the first clause says of counts of `DW` bits or more, is the
model's choice (log entry 11, DESIGN CHOICE). -/
def Obligations.ScriptsKeepTheMachinesResponses : Prop :=
  (∀ (cs : List (Nat × BitVec 3 × Fields Config.W)) (s : State),
    runScript (cs.map fun c => ScriptLine.send c.1 c.2.1 (.lit c.2.2.td) (.lit c.2.2.id)
        (.lit c.2.2.a.toNat) (.lit c.2.2.b.toNat) (if c.2.2.ke = true then some (.lit c.2.2.k) else none)) []
      = some ((cs.map Prod.fst).zip
          (serve (cs.map fun c => packCmd Config.DW c.2.1
            { c.2.2 with k := if c.2.2.ke = true then c.2.2.k else 0 }) s).1).reverse) ∧
  (∀ (ls : List ScriptLine) (h h' : Kept) (s : State), runScript ls h = some h' →
    ∃ (ns : List Nat) (ws : List CmdWord), ns.length = ws.length ∧ ns <+: ls.filterMap ScriptLine.sends ∧
      ((∀ l ∈ ls, l.sends.isSome = true) → ns = ls.filterMap ScriptLine.sends) ∧
      h' = (ns.zip (serve ws s).1).reverse ++ h) ∧
  (∀ (ls rest : List ScriptLine) (h : Kept), (∀ l ∈ ls, l.sends.isSome = true) →
    runScript (ls ++ rest) h = (runScript ls h).bind (runScript rest))

/-- R68, R188: an operand `%n.res` is the result of the latest response kept under the name `n`, in every
operand place of a command, and a command that names a response that has not arrived cannot be sent. That
a name kept twice means the latest response is the model's choice (log entry 11, DESIGN CHOICE). -/
def Obligations.ScriptOperandsCopyKeptResults : Prop :=
  (∀ (h : Kept) (n : Nat) (r : Response Config.W), Kept.find h n = some r ↔
    ∃ newer older, h = newer ++ (n, r) :: older ∧ ∀ p ∈ newer, p.1 ≠ n) ∧
  (∀ (h : Kept) (n : Nat), Kept.find h n = none ↔ ∀ p ∈ h, p.1 ≠ n) ∧
  (∀ (h : Kept) (n m : Nat) (r : Response Config.W) (op : BitVec 3) (w x y z : Operand) (k : Option Operand)
      (rest : List ScriptLine), Kept.find h n = some r →
    runScript (.send m op (.res n) x y z k :: rest) h
      = runScript (.send m op (.lit r.res.toNat) x y z k :: rest) h ∧
    runScript (.send m op w (.res n) y z k :: rest) h
      = runScript (.send m op w (.lit r.res.toNat) y z k :: rest) h ∧
    runScript (.send m op w x (.res n) z k :: rest) h
      = runScript (.send m op w x (.lit r.res.toNat) z k :: rest) h ∧
    runScript (.send m op w x y (.res n) k :: rest) h
      = runScript (.send m op w x y (.lit r.res.toNat) k :: rest) h ∧
    runScript (.send m op w x y z (some (.res n)) :: rest) h
      = runScript (.send m op w x y z (some (.lit r.res.toNat)) :: rest) h) ∧
  (∀ (h : Kept) (n m : Nat) (op : BitVec 3) (w x y z : Operand) (k : Option Operand)
      (rest : List ScriptLine), Kept.find h n = none →
    (w = .res n ∨ x = .res n ∨ y = .res n ∨ z = .res n ∨ k = some (.res n)) →
    runScript (.send m op w x y z k :: rest) h = none)

/-- R68, R189: a stop line ends the script with what is kept when its condition holds and changes nothing
when it does not. The condition compares a field of the latest response under its name, the number at
that field's place in the response word (R62), with a number; that form, that the latest response under a
name is meant, and that a line about a response that has not arrived has no meaning, are the model's
choice (log entry 11, DESIGN CHOICE). -/
def Obligations.ScriptStopLines : Prop :=
  (∀ (h : Kept) (n : Nat) (r : Response Config.W) (x : RspField) (v : Nat) (rest : List ScriptLine),
    Kept.find h n = some r →
    (x.value r = v →
      runScript (.stopIf (.isEq n x v) :: rest) h = some h ∧
      runScript (.stopIf (.isNe n x v) :: rest) h = runScript rest h) ∧
    (x.value r ≠ v →
      runScript (.stopIf (.isEq n x v) :: rest) h = runScript rest h ∧
      runScript (.stopIf (.isNe n x v) :: rest) h = some h)) ∧
  (∀ (h : Kept) (n : Nat) (x : RspField) (v : Nat) (rest : List ScriptLine), Kept.find h n = none →
    runScript (.stopIf (.isEq n x v) :: rest) h = none ∧
    runScript (.stopIf (.isNe n x v) :: rest) h = none) ∧
  (∀ r : Response Config.W, r.q < 2 ^ Config.DW →
    RspField.status.value r = (r.word Config.DW).toNat / 2 ^ 17 ∧
    RspField.ovf.value r = (r.word Config.DW).toNat / 2 ^ 16 % 2 ∧
    RspField.q.value r = (r.word Config.DW).toNat / 2 ^ 8 % 2 ^ 8 ∧
    RspField.res.value r = (r.word Config.DW).toNat % 2 ^ 8)

/-- R67: every command the textual form can express can be written: there is a line of its mnemonic and
operands that is read as it. Which spellings are read is the model's choice (log entry 6, DESIGN
CHOICE). -/
def Obligations.EveryCommandCanBeWritten : Prop :=
  ∀ i : Instr, i.WellFormed → zeroIgnored i = i →
    ∃ operands : List Char, assemble (mnemonicOf i ++ ' ' :: operands) = some i

/-! ### The ports at every instant, and the values outside their domain -/

/-- R28: as soon as the caller presents a command, and after every step, the input ports are the fields of
the command word, the outputs are the response of the total function to it, and the blocks compute those
output ports from those input ports. -/
def Obligations.OutputsFollowTheInputs : Prop :=
  (∀ s : State, s.cmdOp ++ BitVec.ofBool s.cmdKe ++ s.cmdK ++ s.cmdTd ++ s.cmdId ++ s.cmdA ++ s.cmdB = s.cmd) ∧
  (∀ (s : State) (w : CmdWord),
    (s.present w).cmd = w ∧ (s.present w).rsp = answerTo w ∧ step (s.present w) = .next (s.present w)) ∧
  (∀ s t : State, (∃ w, t = s.present w) ∨ step s = .next t →
    t.rsp = transact t.cmdOp ⟨t.cmdKe, t.cmdK.toNat, t.cmdTd.toNat, t.cmdId.toNat, t.cmdA, t.cmdB⟩ ∧
    t.rspPorts = blocksTop t.cmdOp t.cmdKe t.cmdK t.cmdTd t.cmdId t.cmdA t.cmdB)

/-- Log entry 10 (the model's choice, DESIGN CHOICE; no rule of the spec): what the value functions are
where the spec does not define them. No response depends on these values
(`Obligations.StatusOfEveryCommand` gives the errors that come first). -/
def Obligations.ValuesOutsideTheirDomain : Prop :=
  (∀ n : Int, tdiv n 0 = 0) ∧
  (∀ (W : Nat) (f : Fields W), f.td < f.id → fractionDigits f = 0 ∧ (f.ke = false → kEff f = 0)) ∧
  (∀ (W : Nat) (f : Fields W) (k : Nat), ValidScheme f → M f.td f.b = 0 → divExact f k = 0) ∧
  (∀ (W : Nat) (f : Fields W) (k : Nat), f.td - f.id ≤ k →
    divExact f k = tdiv (S f.td f.a * 2 ^ k) (S f.td f.b))
end

