-- ==== Sys2Proof/Laws/Decode.lean ====
section
/-! SUPPORT. What decoding can answer, and where the operation code stands in an encoded command. -/

namespace Sys2Proof

/-- A decoded command has the operation code and the fields of its word. -/
theorem decodeWord_some {w : CmdWord} {i : Instr} (h : decodeWord w = some i) :
    i.op = opOf Config.W Config.DW w ∧ i.fields = fieldsOf Config.W Config.DW w := by
  have key : ∀ c : BitVec 3, c = opOf Config.W Config.DW w → i.op = c ∧ i.fields = fieldsOf Config.W Config.DW w := by
    intro c hc
    unfold decodeWord at h
    rw [← hc] at h
    split at h
    case h_7 => cases h
    all_goals
      rename_i hv
      cases h
      exact ⟨by apply BitVec.eq_of_toNat_eq; rw [hv]; rfl, rfl⟩
  exact key _ rfl

/-- A word is decoded to the command of its operation code and fields. -/
theorem decodeWord_of_op {w : CmdWord} {i : Instr} (hop : opOf Config.W Config.DW w = i.op)
    (hf : fieldsOf Config.W Config.DW w = i.fields) : decodeWord w = some i := by
  unfold decodeWord
  rw [hop, hf]
  cases i <;> rfl

/-- A word that is not decoded has a reserved operation code. -/
theorem decodeWord_none {w : CmdWord} (h : decodeWord w = none) :
    6 ≤ (opOf Config.W Config.DW w).toNat := by
  by_contra hlt
  have hsix : ∃ c, (opOf Config.W Config.DW w).toNat = c ∧ c < 6 := ⟨_, rfl, by omega⟩
  obtain ⟨c, hc, hc6⟩ := hsix
  unfold decodeWord at h
  rw [hc] at h
  interval_cases c <;> cases h

/-- The operation code of an encoded command is read back, for every width. -/
theorem opOf_packCmd {W : Nat} (DW : Nat) (op : BitVec 3) (f : Fields W) :
    opOf W DW (packCmd DW op f) = op := by
  apply BitVec.eq_of_getLsbD_eq
  intro i hi
  simp only [opOf, packCmd, BitVec.getLsbD_extractLsb', BitVec.getLsbD_append, hi, decide_true, Bool.true_and]
  have h1 : ¬ 2 * W + 3 * DW + 1 + i < W := by omega
  have h2 : ¬ 2 * W + 3 * DW + 1 + i - W < W := by omega
  have h3 : ¬ 2 * W + 3 * DW + 1 + i - W - W < DW := by omega
  have h4 : ¬ 2 * W + 3 * DW + 1 + i - W - W - DW < DW := by omega
  have h5 : ¬ 2 * W + 3 * DW + 1 + i - W - W - DW - DW < DW := by omega
  have h6 : ¬ 2 * W + 3 * DW + 1 + i - W - W - DW - DW - DW < 1 := by omega
  have h7 : 2 * W + 3 * DW + 1 + i - W - W - DW - DW - DW - 1 = i := by omega
  simp only [h1, h2, h3, h4, h5, h6, h7, if_false]

end Sys2Proof
end

