-- ==== Sys2Proof/Laws/State.lean ====
section
/-! SUPPORT. One lemma per port for each of the two ways a state changes. -/

namespace Sys2Proof.Machine

variable (s : State) (r r' : Response Config.W) (w w' : CmdWord)

@[simp] theorem respond_cmd : (s.respond r).cmd = s.cmd := rfl
@[simp] theorem respond_rsp : (s.respond r).rsp = r := rfl
@[simp] theorem present_cmd : (s.present w).cmd = w := rfl
@[simp] theorem present_rsp : (s.present w).rsp = answerTo w := rfl
@[simp] theorem respond_respond : (s.respond r).respond r' = s.respond r' := rfl
@[simp] theorem present_present : (s.present w).present w' = s.present w' := rfl

/-- What stood at the output ports is gone when a command is presented. -/
@[simp] theorem present_respond : (s.respond r).present w = s.present w := rfl

theorem state_ext {s t : State} (hc : s.cmd = t.cmd) (hr : s.rsp = t.rsp) : s = t := by
  cases s; cases t; cases hc; cases hr; rfl

end Sys2Proof.Machine
end

