-- ==== Sys2Proof/Laws/Ops.lean ====
section
/-! SUPPORT. What the shared operations can do, once for each. -/

namespace Sys2Proof.Machine

variable {W : Nat}

/-- A transaction ends in one way only. -/
theorem finish_eq_next_iff {r : Response Config.W} {s t : State} :
    finish r s = .next t ↔ t = s.respond r := by
  simp only [finish, Host.Outcome.next.injEq, eq_comm]

theorem withScheme_of_valid {f : Fields W} (h : ValidScheme f) (body : Response W) :
    withScheme f body = body := if_pos h

theorem withScheme_of_invalid {f : Fields W} (h : ¬ ValidScheme f) (body : Response W) :
    withScheme f body = raise .invalidScheme := if_neg h

/-- An operation behind the Scheme check does the operation or fails. -/
theorem withScheme_cases (f : Fields W) (body : Response W) :
    (ValidScheme f ∧ withScheme f body = body) ∨
    (¬ ValidScheme f ∧ withScheme f body = raise .invalidScheme) := by
  by_cases h : ValidScheme f
  · exact .inl ⟨h, withScheme_of_valid h body⟩
  · exact .inr ⟨h, withScheme_of_invalid h body⟩

theorem raise_status (e : Status) : (raise e : Response W).status = e := rfl

theorem answer_status (f : Fields W) (o : Bool) (x : BitVec W) : (answer f o x).status = .ok := rfl

/-- R165: a status is read back from its code. -/
theorem statusOfCode_code (e : Status) : statusOfCode e.code = some e := by cases e <;> rfl

theorem fractionDigits_le {f : Fields W} (h : ValidScheme f) : fractionDigits f ≤ W := by
  have := h.2.1
  unfold fractionDigits
  omega

end Sys2Proof.Machine
end

