-- ==== Sys2Proof/Laws/Operands.lean ====
section
/-! SUPPORT. How a container is read and a result written, each in the form later proofs use. -/

namespace Sys2Proof.Machine

variable {W : Nat}

theorem M_lt (td : Nat) (x : BitVec W) : M td x < 2 ^ td := Nat.mod_lt _ (Nat.two_pow_pos td)

/-- The bits below `td` are those of `M`. -/
theorem testBit_M {td i : Nat} (h : i < td) (x : BitVec W) : (M td x).testBit i = x.getLsbD i := by
  simp [M, Nat.testBit_mod_two_pow, h, BitVec.testBit_toNat]

/-- The sign bit is set exactly in the upper half of the values of `M`. -/
theorem sign_iff {td : Nat} (h : 1 ≤ td) (x : BitVec W) : sign td x = true ↔ 2 ^ (td - 1) ≤ M td x := by
  have hlt := M_lt td x
  have hbit : (M td x).testBit (td - 1) = sign td x := testBit_M (by omega) x
  have htwo : 2 ^ td = 2 ^ (td - 1) + 2 ^ (td - 1) := by
    obtain ⟨n, rfl⟩ : ∃ n, td = n + 1 := ⟨td - 1, by omega⟩
    simp [Nat.pow_succ]; omega
  have hpos := Nat.two_pow_pos (td - 1)
  rw [← hbit, Nat.testBit_eq_decide_div_mod_eq, decide_eq_true_iff]
  constructor
  · intro hd
    by_contra hlow
    rw [Nat.div_eq_of_lt (by omega)] at hd
    omega
  · intro hhigh
    have : M td x / 2 ^ (td - 1) = 1 := Nat.div_eq_of_lt_le (by omega) (by omega)
    rw [this]

/-- A container with the sign bit clear reads as it stands. -/
theorem S_of_sign_clear {td : Nat} {x : BitVec W} (h : sign td x = false) : S td x = M td x := by
  simp [S, h]

/-- A container with the sign bit set reads one wrap lower. -/
theorem S_of_sign_set {td : Nat} {x : BitVec W} (h : sign td x = true) :
    S td x = (M td x : Int) - 2 ^ td := by
  simp [S, h]

/-- A result written to a container is its low `td` bits. -/
theorem narrow_toNat {td : Nat} (h : td ≤ W) (z : Int) : (narrow W td z).toNat = (z % 2 ^ td).toNat := by
  have hpos : (0 : Int) < 2 ^ td := by positivity
  have hlt : (z % 2 ^ td).toNat < 2 ^ td := by
    rw [Int.toNat_lt (Int.emod_nonneg z hpos.ne')]
    exact_mod_cast Int.emod_lt_of_pos z hpos
  exact (BitVec.toNat_ofNat _ _).trans (Nat.mod_eq_of_lt (hlt.trans_le (Nat.pow_le_pow_right (by decide) h)))

theorem ovfOf_iff (td : Nat) (z : Int) : ovfOf td z = true ↔ ¬ InRange td z := by
  simp only [ovfOf, Bool.not_eq_true', decide_eq_false_iff_not]

end Sys2Proof.Machine
end

