-- ==== Sys2Proof/Laws/Exec.lean ====
section
/-! SUPPORT. What `exec` can do, once for all six operations, and what a response can be. -/

namespace Sys2Proof.Machine

variable {W : Nat}

/-- Every operation ends by driving the response of its command, which depends on nothing else. -/
theorem exec_eq_finish (i : Instr) (s : State) : exec i s = finish (transact i.op i.fields) s := by
  cases i <;> rfl

theorem exec_next {i : Instr} {s t : State} (h : exec i s = .next t) :
    t = s.respond (transact i.op i.fields) := by
  rw [exec_eq_finish] at h
  exact finish_eq_next_iff.mp h

/-- What DIV can answer: one of its three errors, in their order, or the aligned quotient. -/
theorem divRsp_cases (f : Fields W) :
    (¬ ValidScheme f ∧ divRsp f = raise .invalidScheme) ∨
    (ValidScheme f ∧ M f.td f.b = 0 ∧ divRsp f = raise .divisionByZero) ∨
    (ValidScheme f ∧ M f.td f.b ≠ 0 ∧ fractionDigits f < kEff f ∧ divRsp f = raise .invalidPrecision) ∨
    (ValidScheme f ∧ M f.td f.b ≠ 0 ∧ kEff f ≤ fractionDigits f ∧
      divRsp f = answerNarrowed f (divExact f (kEff f))) := by
  by_cases hv : ValidScheme f
  · rw [divRsp, withScheme_of_valid hv]
    by_cases hz : M f.td f.b = 0
    · exact .inr (.inl ⟨hv, hz, if_pos hz⟩)
    · rw [if_neg hz]
      by_cases hk : fractionDigits f < kEff f
      · exact .inr (.inr (.inl ⟨hv, hz, hk, if_pos hk⟩))
      · exact .inr (.inr (.inr ⟨hv, hz, Nat.le_of_not_lt hk, if_neg hk⟩))
  · exact .inl ⟨hv, by rw [divRsp, withScheme_of_invalid hv]⟩

end Sys2Proof.Machine
end

