-- ==== Sys2Proof/Laws/InFlight.lean ====
section
/-! SUPPORT. What taking a caller's oldest command out of the queue does. -/

namespace Sys2Proof.Machine

theorem takeFirst_none {c : Nat} {q : List Flight} (h : takeFirst c q = none) :
    ∀ x ∈ q, x.caller ≠ c := by
  induction q with
  | nil => intro x hx; cases hx
  | cons y ys ih =>
    unfold takeFirst at h
    split at h
    · cases h
    · rename_i hy
      intro x hx
      rcases List.mem_cons.mp hx with rfl | hx
      · exact hy
      · exact ih (Option.map_eq_none_iff.mp h) x hx

theorem takeFirst_some {c : Nat} {q : List Flight} {x : Flight} {rest : List Flight}
    (h : takeFirst c q = some (x, rest)) :
    ∃ pre post, q = pre ++ x :: post ∧ rest = pre ++ post ∧ x.caller = c ∧
      ∀ y ∈ pre, y.caller ≠ c := by
  induction q generalizing rest with
  | nil => cases h
  | cons y ys ih =>
    unfold takeFirst at h
    split at h
    · rename_i hy
      cases h
      exact ⟨[], ys, rfl, rfl, hy, by simp⟩
    · rename_i hy
      obtain ⟨p, hp, hpe⟩ := Option.map_eq_some_iff.mp h
      cases hpe
      obtain ⟨pre, post, rfl, hr, hc, hne⟩ := ih (rest := p.2) hp
      refine ⟨y :: pre, post, rfl, by simp [hr], hc, ?_⟩
      intro z hz
      rcases List.mem_cons.mp hz with rfl | hz
      · exact hy
      · exact hne z hz

end Sys2Proof.Machine
end

