-- ==== Sys2Proof/Laws/PerInstr.lean ====
section
/-! SUPPORT. Facts about every command as syntax, one lemma per constructor. -/

namespace Sys2Proof.Laws.OperationCode

/-- The code is one of the six (R57) and stands in the encoded word. -/
def Statement (i : Instr) : Prop := i.op.toNat < 6 ∧ opOf Config.W Config.DW (encode i) = i.op

theorem mkscheme (f : Fields Config.W) : Statement (.mkscheme f) := ⟨(by decide : 0 < 6), opOf_packCmd _ _ _⟩
theorem decode (f : Fields Config.W) : Statement (.decode f) := ⟨(by decide : 1 < 6), opOf_packCmd _ _ _⟩
theorem add (f : Fields Config.W) : Statement (.add f) := ⟨(by decide : 2 < 6), opOf_packCmd _ _ _⟩
theorem sub (f : Fields Config.W) : Statement (.sub f) := ⟨(by decide : 3 < 6), opOf_packCmd _ _ _⟩
theorem mul (f : Fields Config.W) : Statement (.mul f) := ⟨(by decide : 4 < 6), opOf_packCmd _ _ _⟩
theorem div (f : Fields Config.W) : Statement (.div f) := ⟨(by decide : 5 < 6), opOf_packCmd _ _ _⟩

end Sys2Proof.Laws.OperationCode
end

