-- ==== Sys2Proof/Tests/Slice0.lean ====
section
/-! SUPPORT. Tests and witnesses. Every expected word of a test is copied from the spec (30_encoding.md
section 6 and 95_test_vectors.md; the row is named); none is the model's own output. A witness shows
data that meet the hypotheses of the obligation it is named after, at boundary values. -/

namespace Sys2Proof.Tests

open Sys2Proof.Machine

/-- The fields of a command with `ke = 0`. -/
def cmd (td id : Nat) (a b : BitVec 8) : Fields Config.W := ⟨false, 0, td, id, a, b⟩

/-- The fields of a command with `ke = 1`. -/
def cmdK (td id : Nat) (a b : BitVec 8) (k : Nat) : Fields Config.W := ⟨true, k, td, id, a, b⟩

/-- A state with a command word at its input ports. -/
def atPorts (w : Nat) : State := State.reset.withFetchWord 48 w

/-- The response word at the output ports after one step on a command word. -/
def answered (w : Nat) : Option Nat :=
  match step (atPorts w) with
  | .next t => some (t.rsp.word Config.DW).toNat
  | .fault _ => none
  | .refused _ => none

/-! ### Well-formedness: each check refuses a term -/

theorem test_wf_refuses_wide_k : ¬ (Instr.div (cmdK 8 6 0x13 0x0D 256)).WellFormed := by decide
theorem test_wf_refuses_wide_td : ¬ (Instr.add (cmd 256 5 3 17)).WellFormed := by decide
theorem test_wf_refuses_wide_id : ¬ (Instr.mkscheme (cmd 8 256 0 0)).WellFormed := by decide
theorem test_wf_admits_largest : (Instr.mkscheme (cmdK 255 255 0xFF 0xFF 255)).WellFormed := by decide

/-! ### Decoding: words written out from R55, `op ke k td id a b` -/

theorem test_decode_mkscheme : decodeWord (0b000#3 ++ 0b0#1 ++ 0b00000000#8 ++ 0b00001000#8 ++ 0b00000101#8
    ++ 0b00000000#8 ++ 0b00000000#8) = some (.mkscheme (cmd 8 5 0 0)) := by decide
theorem test_decode_decode : decodeWord (0b001#3 ++ 0b0#1 ++ 0b00000000#8 ++ 0b00001000#8 ++ 0b00000101#8
    ++ 0b00010001#8 ++ 0b00000000#8) = some (.decode (cmd 8 5 0x11 0)) := by decide
theorem test_decode_add : decodeWord (0b010#3 ++ 0b0#1 ++ 0b00000000#8 ++ 0b00001000#8 ++ 0b00000101#8
    ++ 0b00000011#8 ++ 0b00010001#8) = some (.add (cmd 8 5 0x03 0x11)) := by decide
theorem test_decode_sub : decodeWord (0b011#3 ++ 0b0#1 ++ 0b00000000#8 ++ 0b00001000#8 ++ 0b00000101#8
    ++ 0b00000011#8 ++ 0b00010001#8) = some (.sub (cmd 8 5 0x03 0x11)) := by decide
theorem test_decode_mul : decodeWord (0b100#3 ++ 0b0#1 ++ 0b00000000#8 ++ 0b00001000#8 ++ 0b00000110#8
    ++ 0b00000111#8 ++ 0b00001001#8) = some (.mul (cmd 8 6 0x07 0x09)) := by decide
theorem test_decode_div : decodeWord (0b101#3 ++ 0b1#1 ++ 0b00000010#8 ++ 0b00001000#8 ++ 0b00000110#8
    ++ 0b00010011#8 ++ 0b00001101#8) = some (.div (cmdK 8 6 0x13 0x0D 2)) := by decide
theorem test_decode_reserved : decodeTableWord 48 0xC0008050101 = none ∧
    decodeTableWord 48 0xFFF08050000 = none := by decide
/-- 10_state.md R28, row A3: the outputs follow as soon as the command is presented, before any step. -/
theorem test_outputs_follow : ((atPorts 0x40008055C62).rsp.word 8).toNat = 0x103BE := by decide
/-- 30_encoding.md section 6. -/
theorem test_encode_div : encode (.div (cmdK 8 6 0x13 0x0D 2)) = 0xB020806130D#44 := by decide

/-! ### One transaction: rows of 95_test_vectors.md -/

/-- Rows M1 and M8. -/
theorem test_mkscheme : answered 0x00008050000 = some 0x00300 ∧ answered 0x00000000000 = some 0x20000 := by decide
/-- Row Z11, ignored fields. -/
theorem test_mkscheme_ignores : answered 0x1090805DEAD = some 0x00300 := by decide
/-- Rows E19 and E15: sign extension of a narrow container. -/
theorem test_decode_sext : answered 0x2000402FA00 = some 0x002FA ∧ answered 0x20001010100 = some 0x000FF := by decide
/-- Row E9: `id = 0`. -/
theorem test_decode_pure_fraction : answered 0x20008008000 = some 0x00880 := by decide
/-- Rows A3 and A7: overflow both ways. -/
theorem test_add_wraps : answered 0x40008055C62 = some 0x103BE ∧ answered 0x400080580FF = some 0x1037F := by decide
/-- Row A12: dirty high bits. -/
theorem test_add_masks : answered 0x4000402F7F1 = some 0x10208 := by decide
/-- Rows B2 and B8: operand order, the largest difference. -/
theorem test_sub : answered 0x60008050311 = some 0x003F2 ∧ answered 0x60008057F80 = some 0x103FF := by decide
/-- Row B11: `td = 1`. -/
theorem test_sub_one_bit : answered 0x60001010001 = some 0x10001 := by decide
/-- Rows X7 and X10: rounding down, overflow by one. -/
theorem test_mul : answered 0x8000806F909 = some 0x002F0 ∧ answered 0x800080680FC = some 0x10280 := by decide
/-- Row X19: a shift by the whole width. -/
theorem test_mul_full_shift : answered 0x8000800807F = some 0x008C0 := by decide
/-- Rows V6 and V21: toward zero, the largest quotient. -/
theorem test_div : answered 0xA000806ED0D = some 0x002FB ∧ answered 0xA00080080FF = some 0x10800 := by decide
/-- Rows V3, Z4, Z5, Z6 and Z7: intermediate pre-scale, the priority of errors, `k` ignored. -/
theorem test_div_errors : answered 0xB010806130D = some 0x00204 ∧ answered 0xA0009000100 = some 0x20000 ∧
    answered 0xB0308061300 = some 0x40000 ∧ answered 0xB030806130D = some 0x60000 ∧
    answered 0xA030806130D = some 0x00205 := by decide
/-- Row Z2. -/
theorem test_reserved : answered 0xE0000000000 = some 0x80000 := by decide

/-! ### Values, blocks, scripts, text -/

/-- 40_scheme_decode.md R83: `DECODE 4, 2, 0xFA` has the value `-1.5`. -/
theorem test_value_loop : decodeLoop 4 2 (0xFA#8) = -3 / 2 ∧ decodeSum 4 2 (0xFA#8) = -3 / 2 := by decide +kernel
/-- Row V21 through the blocks: the quotient needs `2W + 1` bits. -/
theorem test_blocks_widest_quotient : blocksWord 8 8 0xA00080080FF = 0x10800 := by decide
/-- Row X7 through the blocks. -/
theorem test_blocks_mul : blocksWord 8 8 0x8000806F909 = 0x002F0 := by decide
/-- 30_encoding.md R67: the worked literal, and the two forms of DIV. -/
theorem test_assemble : assemble "DECODE 8, 5, 0b01011.100 ; 11.5".toList = some (.decode (cmd 8 5 92 0)) ∧
    assemble "DIV 8, 6, 19, 13".toList = some (.div (cmd 8 6 19 13)) ∧
    assemble "DIV 8, 6, 0x13, 13, 2".toList = some (.div (cmdK 8 6 19 13 2)) := by decide
/-- Script P3 of 95_test_vectors.md: the branch after `%6` is taken and `%7` is never sent. -/
theorem test_script_p3 :
    (runScript
      [.send 1 5 (.lit 8) (.lit 6) (.lit 19) (.lit 13) (some (.lit 0)),
       .send 3 5 (.lit 8) (.lit 6) (.lit 19) (.lit 13) (some (.lit 2)),
       .send 4 3 (.lit 8) (.lit 6) (.res 3) (.res 1) none,
       .send 5 3 (.lit 8) (.lit 6) (.lit 13) (.lit 13) none,
       .send 6 5 (.lit 8) (.lit 6) (.lit 19) (.res 5) none,
       .stopIf (.isNe 6 .status 0),
       .send 7 1 (.lit 8) (.lit 6) (.res 6) (.lit 0) none] []).map
      (fun h => h.map fun p => (p.1, (p.2.word 8).toNat))
    = some [(6, 0x40000), (5, 0x00200), (4, 0x00201), (3, 0x00205), (1, 0x00204)] := by decide
/-- 70_reset_and_hazards.md R185, R188: two callers, a reset between acceptance and answer. -/
theorem test_reset_drops :
    (Link.empty.run [.accept 0 0x40008050311, .reset, .accept 0 0x60008050311, .accept 1 0xE0000000000,
      .answer 0]).received 0 = [⟨.ok, false, 3, 0xF2⟩] := by decide

/-! ### Witnesses -/

theorem witness_DecodeInvertsEncode : (Instr.div (cmdK 255 255 0xFF 0xFF 255)).WellFormed ∧
    (Instr.mkscheme (cmd 0 0 0 0)).WellFormed := by decide
theorem witness_EncodeInvertsDecode :
    decodeWord 0xBFFFFFFFFFF = some (.div (cmdK 255 255 0xFF 0xFF 255)) := by decide
theorem witness_CommandWordLayout : (cmdK 255 255 0xFF 0xFF 255).WellFormed 8 ∧
    (⟨true, 1, 1, 0, 1, 0⟩ : Fields 1).WellFormed 1 ∧ (Instr.sub (cmd 255 0 0 0)).WellFormed := by decide
theorem witness_OperationCodes : decodeWord 0xA000806130D = some (.div (cmd 8 6 0x13 0x0D)) ∧
    (0xBFFFFFFFFFF : CmdWord) &&& 0xE0000000000 = (Instr.div (cmd 8 6 0x13 0x0D)).op.setWidth 44 <<< 41 := by decide
theorem witness_ResponseWordLayout : (transact 2 (cmd 8 5 3 17)).status = .ok ∧ (⟨.illegalOp, true, 255, 0xFF⟩ : Response 8).q < 2 ^ 8 ∧
    responseOfWord 8 8 0xA0000 = none := by decide
theorem witness_StepRunsTheDecodedCommand :
    decodeWord (atPorts 0x40008050311).cmd = some (.add (cmd 8 5 3 17)) ∧
    decodeWord (atPorts 0xC0000000000).cmd = none ∧
    decodeTableWord 48 0x40008050311 = some (.add (cmd 8 5 3 17)) := by decide
theorem witness_StepDrivesTheTransactionResponse :
    6 ≤ (6 : BitVec 3).toNat ∧ 6 ≤ (7 : BitVec 3).toNat ∧ (5 : BitVec 3).toNat < 6 ∧ ¬ Valid 8 0 0 ∧
    ¬ Valid 8 9 0 ∧ ¬ Valid 8 8 9 ∧ Valid 8 1 0 ∧ Valid 8 8 8 := by decide
theorem witness_ReservedCodesAnswerIllegalOp :
    6 ≤ (opOf Config.W Config.DW (atPorts 0xC0008050101).cmd).toNat ∧
    6 ≤ (opOf Config.W Config.DW (atPorts 0xE0000000000).cmd).toNat ∧
    (opOf Config.W Config.DW (atPorts 0xBFFFFFFFFFF).cmd).toNat < 6 := by decide
theorem witness_ExecWritesOnlyTheOutputPorts :
    exec (.add (cmd 8 5 3 17)) State.reset = .next { State.reset with rsp := ⟨.ok, false, 3, 20⟩ } := rfl
theorem witness_StepIsIdempotent : step (atPorts 0x40008050311)
    = .next { atPorts 0x40008050311 with rsp := ⟨.ok, false, 3, 20⟩ } := rfl
theorem witness_CommandsAreAnsweredIndependently :
    ([0x40008050311, 0xE0000000000] : List CmdWord).Perm [0xE0000000000, 0x40008050311] := by decide
theorem witness_EveryAnswerIsLegal : Config.Legal 8 8 ∧ Config.Legal 1 1 ∧
    (transact 2 (cmd 8 5 3 17)).status = .ok := by decide
theorem witness_OutputPortsStayLegal : State.reset.Legal ∧ State.reset.Settled ∧
    step State.reset = .next State.reset ∧
    ¬ State.Settled ⟨0x40008050311, raise .illegalOp⟩ ∧ State.Legal ⟨0x40008050311, raise .illegalOp⟩ ∧
    step ⟨0x40008050311, raise .illegalOp⟩ = .next ⟨0x40008050311, ⟨.ok, false, 3, 20⟩⟩ :=
  ⟨⟨fun _ => rfl, by decide⟩, rfl, rfl, by unfold State.Settled; decide, ⟨fun _ => rfl, by decide⟩, rfl⟩
theorem witness_StatusOfEveryCommand : (transact 5 (cmd 8 6 0x13 0)).status = .divisionByZero ∧
    (transact 5 (cmdK 8 6 0x13 0x0D 3)).status = .invalidPrecision ∧
    (transact 5 (cmd 9 0 1 0)).status = .invalidScheme ∧ (transact 6 (cmd 0 0 0 0)).status = .illegalOp := by decide
theorem witness_ErrorsHaveNoPartialEffect :
    exec (.div (cmd 8 6 0x13 0)) State.reset
      = .next { State.reset with rsp := ⟨.divisionByZero, false, 0, 0⟩ } ∧
    exec (.div (cmdK 8 6 0x13 0x0D 3)) State.reset
      = .next { State.reset with rsp := ⟨.invalidPrecision, false, 0, 0⟩ } := ⟨rfl, rfl⟩
theorem witness_IgnoredFieldsMakeNoDifference :
    M 4 (cmd 4 2 0xFA 0xF1).a = M 4 (cmdK 4 2 0x0A 0x01 7).a ∧
    M 4 (cmd 4 2 0xFA 0xF1).b = M 4 (cmdK 4 2 0x0A 0x01 7).b ∧
    6 ≤ (opOf Config.W Config.DW (atPorts 0xC0008050101).cmd).toNat ∧
    6 ≤ (opOf Config.W Config.DW (atPorts 0xFFF08050000).cmd).toNat := by decide
theorem witness_ContainerBitsAboveTheScheme : (transact 2 (cmd 4 2 0xF7 0xF1)).status = .ok ∧
    (transact 5 (cmd 4 2 0xF6 0x04)).status = .ok ∧ (cmd 4 2 0xF7 0xF1).td ≤ 4 ∧
    step State.reset = .next State.reset := ⟨rfl, rfl, by decide, rfl⟩
theorem witness_OverflowOutput : (transact 5 (cmd 8 6 1 0)).status ≠ .ok ∧ (1 : BitVec 3).toNat < 2 ∧
    (transact 2 (cmd 8 5 0x7F 1)).status = .ok ∧ (transact 3 (cmd 8 5 0 0x80)).status = .ok ∧
    (transact 4 (cmd 8 1 0x80 0x80)).status = .ok ∧ (transact 5 (cmd 8 6 0x80 0xFC)).status = .ok := by decide
theorem witness_ValidSchemes : 8 < 2 ^ 8 ∧ 1 < 2 ^ 1 ∧
    exec (.mkscheme (cmd 8 8 0 0)) State.reset = .next { State.reset with rsp := ⟨.ok, false, 0, 0⟩ } :=
  ⟨by decide, by decide, rfl⟩
theorem witness_MkschemeChecksTheScheme : Valid 8 1 0 ∧ Valid 8 8 8 ∧ ¬ Valid 8 0 0 ∧ ¬ Valid 8 9 0 ∧
    ¬ Valid 8 8 9 := by decide
theorem witness_DecodeAnswersTheDecodedValue : Valid 8 4 2 ∧ Valid 8 1 1 ∧ 3 < (cmd 4 2 0xFA 0).td ∧
    ¬ Valid 8 9 0 := by decide
theorem witness_DecodedValueIsTheWeightedSum : Valid 8 8 0 ∧ Valid 1 1 1 := by decide
theorem witness_DecodeLoopComputesTheValue : Valid 8 8 0 ∧ Valid 1 1 0 := by decide
theorem witness_EdgeSchemes : Valid 8 8 0 ∧ Valid 8 8 8 ∧ 1 ≤ 1 ∧ Valid 8 1 1 := by decide
theorem witness_DecodedValuesFillTheRange : Valid 8 8 5 ∧ Representable 8 5 ((-128 : Int) * granularity 8 5) ∧
    Representable 8 5 ((127 : Int) * granularity 8 5) ∧ (0x80#8).toNat < 2 ^ 8 ∧
    V 8 5 (0x80#8) = (-128 : Int) * granularity 8 5 := by
  refine ⟨by decide, ?_, ?_, by decide, by decide +kernel⟩ <;>
    constructor <;> norm_num [granularity, zpow_ofNat]
theorem witness_ValueFunctions : 1 ≤ 1 ∧ 8 ≤ 8 := by decide
theorem witness_DivisionAndShifts : (-2 : Int) ≠ 0 := by decide
theorem witness_AddAnswersTheWrappedSum : Valid 8 8 5 ∧ Valid 8 1 0 ∧ ¬ Valid 8 8 9 := by decide
theorem witness_SubAnswersTheWrappedDifference : Valid 8 8 5 ∧ Valid 8 1 0 ∧ ¬ Valid 8 8 9 := by decide
theorem witness_AddSubIgnoreTheBinaryPoint : ValidScheme (cmd 8 5 0x40 0x40) ∧
    ValidScheme (cmd 8 0 0x40 0x40) := by decide
theorem witness_AddSubExactWithoutOverflow : ValidScheme (cmd 8 5 3 17) ∧
    (addRsp (cmd 8 5 3 17)).ovf = false ∧ (subRsp (cmd 8 5 3 17)).ovf = false := by decide
theorem witness_AddSubOverflowIsOneWrap :
    (addRsp (cmd 8 5 92 98)).ovf = true ∧ 0 < V 8 5 (92#8) + V 8 5 (98#8) ∧
    (addRsp (cmd 8 5 0x80 0x80)).ovf = true ∧ V 8 5 (0x80#8) + V 8 5 (0x80#8) < 0 ∧
    (subRsp (cmd 8 5 0 0x80)).ovf = true ∧ 0 < V 8 5 (0#8) - V 8 5 (0x80#8) ∧
    (subRsp (cmd 8 5 0x80 1)).ovf = true ∧ V 8 5 (0x80#8) - V 8 5 (1#8) < 0 := by decide +kernel
theorem witness_AdderLaws : ValidScheme (cmd 4 2 0xF7 0xF1) ∧ S 4 (0xF1#8) ≠ -2 ^ (4 - 1) := by decide
theorem witness_ScaleShifts : ValidScheme (cmd 8 0 0x80 0) ∧ 8 ≤ 8 - 0 ∧ (2 : Int) ^ 2 ∣ 56 ∧
    (-63 : Int) < 0 ∧ ¬ (2 : Int) ^ 2 ∣ -63 := by decide
theorem witness_MulAnswersTheShiftedProduct : Valid 8 8 0 ∧ sign 8 (0x7F#8) = false ∧ ¬ Valid 8 9 0 := by decide
theorem witness_MulRoundsDown : ValidScheme (cmd 8 6 0xF9 0x09) ∧ (mulRsp (cmd 8 6 0xF9 0x09)).ovf = false := by decide
theorem witness_MulSignsAndUnit : ValidScheme (cmd 8 6 0xFF 0x01) ∧ S 8 (0xFF#8) * S 8 (0x01#8) < 0 ∧
    0 < S 8 (0xFF#8) * S 8 (0xFF#8) ∧ S 8 (0#8) * S 8 (0xFF#8) = 0 ∧ 2 ≤ (cmd 8 2 0 0).id ∧
    ValidScheme (cmd 8 1 0 0) ∧ (cmd 8 1 0 0).id ≤ 1 := by decide
theorem witness_MulOverflow : ValidScheme (cmd 8 1 0x80 0x80) ∧ (cmd 8 1 0x80 0x80).id = 1 ∧
    (mulRsp (cmd 8 1 0x80 0x80)).ovf = true := by decide
theorem witness_DivAnswersTheAlignedQuotient : ¬ Valid 8 9 0 ∧ Valid 8 4 2 ∧ M 4 (0xF0#8) = 0 ∧
    M 8 (0x0D#8) ≠ 0 ∧ 8 - 6 < 3 ∧ 2 ≤ 8 - 6 := by decide
theorem witness_OmittedPrecisionIsFull : ValidScheme (cmd 8 6 1 1) ∧ (cmdK 8 6 1 1 2).ke = true ∧ (cmd 8 6 1 1).ke = false := by decide
theorem witness_PrecisionAboveFractionDigitsFails : ValidScheme (cmdK 8 8 0x64 0x07 1) ∧ M 8 (0x07#8) ≠ 0 ∧
    8 - 8 < (cmdK 8 8 0x64 0x07 1).k ∧ (cmdK 8 8 0x64 0x07 0).k ≤ 8 - 8 ∧ (cmd 8 8 0x64 0x07).ke = false := by decide
theorem witness_DivisionByZeroExactly : ValidScheme (cmd 4 2 0x05 0xF0) ∧ M 4 (0xF0#8) = 0 ∧
    (divRsp (cmd 4 2 0x05 0xF0)).status = .divisionByZero := by decide
theorem witness_DivTruncatesTowardZero : ValidScheme (cmd 8 6 0xED 0x0D) ∧ M 8 (0x0D#8) ≠ 0 ∧
    kEff (cmd 8 6 0xED 0x0D) = 2 ∧ 2 ≤ 8 - 6 ∧ (divRsp (cmd 8 6 0xED 0x0D)).ovf = false := by decide
theorem witness_MorePreScaleIsNeverWorse : ValidScheme (cmd 8 6 0x13 0x0D) ∧ M 8 (0x0D#8) ≠ 0 ∧ 0 ≤ 2 ∧
    2 ≤ 8 - 6 ∧ (divRsp (cmdK 8 6 0x13 0x0D 0)).ovf = false ∧ (divRsp (cmdK 8 6 0x13 0x0D 2)).ovf = false := by decide
theorem witness_DivSigns : 2 ≤ 8 - 6 ∧ (-7 : Int) ≠ 0 ∧ 0 ≤ (-7 : Int) * -2 ∧ (-7 : Int) * 2 ≤ 0 ∧
    ValidScheme (cmd 8 6 0x13 0x0D) ∧ M 8 (0x0D#8) ≠ 0 ∧ S 8 (0xED#8) = -S 8 (0x13#8) ∧
    S 8 (0xF3#8) = -S 8 (0x0D#8) ∧ 1 ≤ 1 ∧ 8 ≤ 8 := by decide
theorem witness_QuotientOverflow : ValidScheme (cmd 8 8 0x80 0xFF) ∧ M 8 (0xFF#8) ≠ 0 ∧
    kEff (cmd 8 8 0x80 0xFF) ≤ 8 - 8 ∧ (divRsp (cmd 8 8 0x80 0xFF)).ovf = true := by decide
theorem witness_InternalWidths : ValidScheme (cmd 8 0 0x80 0xFF) ∧ 8 ≤ 8 - 0 ∧ M 8 (0xFF#8) ≠ 0 := by decide
theorem witness_BlocksComputeTheResponseWord : Config.Legal 8 8 ∧ Config.Legal 1 1 := by decide
theorem witness_ResponsesComeBackInOrder : LinkEvent.accept 0 0 ≠ .reset ∧ LinkEvent.answer 1 ≠ .reset ∧ LinkEvent.reset ∉
    [LinkEvent.accept 0 0x40008050311, .accept 1 0xE0000000000, .answer 1, .answer 0] := by decide
theorem witness_AssemblerZeroesIgnoredFields :
    assemble "DIV 8, 6, 19, 13, 2".toList = some (.div (cmdK 8 6 19 13 2)) ∧
    (Literal.mk 8 none).count = some 8 ∧ (Literal.mk 5 none).count = some 5 ∧
    (Literal.mk 92 (some 3)).container 8 5 = some 92 ∧ (Literal.mk 255 none).container 8 5 = some 255 ∧
    (Literal.mk 255 none).count = some 255 ∧ 255 < 2 ^ 8 ∧
    (operationOf "DIV".toList 5).isSome = true := by decide
/-- A kept list with one name twice and a script that stops in the middle. -/
theorem witness_ScriptsKeepTheMachinesResponses :
    (∀ l ∈ [ScriptLine.send 1 2 (.lit 8) (.lit 5) (.lit 3) (.lit 17) none], l.sends.isSome = true) ∧
    runScript [.send 1 2 (.lit 8) (.lit 5) (.lit 3) (.lit 17) none, .stopIf (.isEq 1 .status 0),
      .send 2 0 (.lit 8) (.lit 5) (.lit 0) (.lit 0) none] [] = some [(1, ⟨.ok, false, 3, 20⟩)] := by decide
theorem witness_ScriptOperandsCopyKeptResults :
    Kept.find [(1, ⟨.ok, false, 3, 20⟩), (1, ⟨.ok, false, 3, 7⟩)] 1 = some ⟨.ok, false, 3, 20⟩ ∧
    Kept.find [(1, ⟨.ok, false, 3, 20⟩)] 2 = none ∧ (Operand.res 2 = .res 2) := by decide
theorem witness_ScriptStopLines :
    Kept.find [(6, ⟨.divisionByZero, false, 0, 0⟩)] 6 = some ⟨.divisionByZero, false, 0, 0⟩ ∧
    RspField.status.value (⟨.divisionByZero, false, 0, 0⟩ : Response 8) = 2 ∧
    RspField.status.value (⟨.divisionByZero, false, 0, 0⟩ : Response 8) ≠ 0 ∧
    Kept.find [(6, ⟨.divisionByZero, false, 0, 0⟩)] 7 = none ∧
    (⟨.illegalOp, true, 255, 0xFF⟩ : Response 8).q < 2 ^ 8 := by decide
theorem witness_EveryCommandCanBeWritten : (Instr.div (cmdK 255 255 0xFF 0xFF 255)).WellFormed ∧
    zeroIgnored (.div (cmdK 255 255 0xFF 0xFF 255)) = .div (cmdK 255 255 0xFF 0xFF 255) ∧
    zeroIgnored (.mkscheme (cmd 0 255 0 0)) = .mkscheme (cmd 0 255 0 0) ∧
    mnemonicOf (.div (cmdK 255 255 0xFF 0xFF 255)) ++ " 255,255,255,255,255".toList
      = "DIV 255,255,255,255,255".toList ∧
    assemble "DIV 255,255,255,255,255".toList = some (.div (cmdK 255 255 0xFF 0xFF 255)) := by decide
theorem witness_OutputsFollowTheInputs : (∃ w, atPorts 0x40008050311 = State.reset.present w) ∧
    step State.reset = .next State.reset := ⟨⟨0x40008050311, rfl⟩, rfl⟩
theorem witness_ValuesOutsideTheirDomain : (cmd 3 4 0 0).td < (cmd 3 4 0 0).id ∧ (cmd 3 4 0 0).ke = false ∧
    ValidScheme (cmd 8 6 0x13 0) ∧ M 8 (0#8) = 0 ∧ 8 - 6 ≤ 3 := by decide

end Sys2Proof.Tests
end

section
/-! What the value functions of a container (00_scope.md R11) satisfy for every width. -/

namespace Sys2Proof.Machine

variable {W : Nat}

/-- The range of `td` bits is two halves of the signed range. -/
theorem two_pow_eq_two_mul_half {td : Nat} (h : 1 ≤ td) : (2 : Int) ^ td = 2 * 2 ^ (td - 1) := by
  rw [← pow_succ', Nat.sub_add_cancel h]

theorem M_lt_int (td : Nat) (x : BitVec W) : (M td x : Int) < 2 ^ td := by
  exact_mod_cast M_lt td x

/-- `S` and `M` are the same number modulo `2^td`. -/
theorem S_emod (td : Nat) (x : BitVec W) : S td x % 2 ^ td = M td x := by
  rw [S, Int.sub_mul_emod_self_left]
  exact Int.emod_eq_of_lt (Int.natCast_nonneg _) (M_lt_int td x)

/-- `sign_iff` on integers. -/
theorem sign_iff_int {td : Nat} (h : 1 ≤ td) (x : BitVec W) :
    sign td x = true ↔ (2 : Int) ^ (td - 1) ≤ M td x := by
  rw [sign_iff h]
  norm_cast

theorem S_neg_iff (td : Nat) (x : BitVec W) : S td x < 0 ↔ sign td x = true := by
  have hlt := M_lt_int td x
  cases hs : sign td x with
  | true => rw [S_of_sign_set hs]; simpa using hlt
  | false => rw [S_of_sign_clear hs]; simp

theorem S_inRange {td : Nat} (h : 1 ≤ td) (x : BitVec W) : InRange td (S td x) := by
  have hhalf := two_pow_eq_two_mul_half h
  have hlt := M_lt_int td x
  have hsign := sign_iff_int h x
  cases hs : sign td x with
  | true =>
    have hhigh := hsign.mp hs
    rw [S_of_sign_set hs]
    constructor <;> omega
  | false =>
    have hlow : ¬ (2 : Int) ^ (td - 1) ≤ M td x := by simp [← hsign, hs]
    rw [S_of_sign_clear hs]
    constructor <;> omega

/-- `S` is 0 exactly where `M` is. -/
theorem S_eq_zero_iff {td : Nat} (h : 1 ≤ td) (x : BitVec W) : S td x = 0 ↔ M td x = 0 := by
  constructor
  · intro hS
    have hmod := S_emod td x
    rw [hS, Int.zero_emod] at hmod
    exact_mod_cast hmod.symm
  · intro hM
    have hclear : sign td x = false := by
      rw [← Bool.not_eq_true, sign_iff h, hM]
      exact Nat.not_le_of_gt (Nat.two_pow_pos _)
    rw [S_of_sign_clear hclear, hM, Nat.cast_zero]

/-- `narrow_toNat` on integers. -/
theorem narrow_toNat_int {td : Nat} (h : td ≤ W) (z : Int) :
    ((narrow W td z).toNat : Int) = z % 2 ^ td := by
  rw [narrow_toNat h, Int.toNat_of_nonneg (Int.emod_nonneg z (by positivity))]

/-- Nothing of a narrowed number stands above its low `td` bits. -/
theorem M_narrow {td : Nat} (h : td ≤ W) (z : Int) : (M td (narrow W td z) : Int) = z % 2 ^ td := by
  rw [M, Int.natCast_mod, narrow_toNat_int h, Nat.cast_pow, Nat.cast_ofNat, Int.emod_emod]

theorem S_narrow_emod {td : Nat} (h : td ≤ W) (z : Int) :
    S td (narrow W td z) % 2 ^ td = z % 2 ^ td := by
  rw [S_emod, M_narrow h]

/-- The signed range of `td` bits holds each residue modulo `2^td` once. -/
theorem InRange.eq_of_emod_eq {td : Nat} (h : 1 ≤ td) {y z : Int} (hy : InRange td y)
    (hz : InRange td z) (hyz : y % 2 ^ td = z % 2 ^ td) : y = z := by
  obtain ⟨hylow, hyhigh⟩ := hy
  obtain ⟨hzlow, hzhigh⟩ := hz
  have hhalf := two_pow_eq_two_mul_half h
  have hdvd : (2 : Int) ^ td ∣ y - z := Int.ModEq.dvd (Eq.symm hyz)
  have habs : |y - z| < 2 ^ td := abs_lt.mpr ⟨by omega, by omega⟩
  exact sub_eq_zero.mp (Int.eq_zero_of_abs_lt_dvd hdvd habs)

/-- R11: narrowing keeps exactly the numbers in range. -/
theorem inRange_iff_S_narrow {td : Nat} (h : 1 ≤ td) (hW : td ≤ W) (z : Int) :
    InRange td z ↔ S td (narrow W td z) = z := by
  have hin := S_inRange h (narrow W td z)
  constructor
  · intro hz
    exact hin.eq_of_emod_eq h hz (S_narrow_emod hW z)
  · intro heq
    rwa [heq] at hin

/-! The integer division and the shifts (R12). -/

theorem shl_eq_mul_two_pow (z : Int) (s : Nat) : shl z s = z * 2 ^ s := rfl

theorem shl_zero (z : Int) : shl z 0 = z := by rw [shl_eq_mul_two_pow, pow_zero, mul_one]

theorem asr_eq_floor (z : Int) (s : Nat) : asr z s = ⌊(z : ℚ) / 2 ^ s⌋ := by
  have := Rat.floor_intCast_div_natCast z (2 ^ s)
  push_cast at this
  exact this.symm

/-- The quotient has the sign of `n * d` (unless it is 0) and the magnitude of the truncated division. -/
theorem tdiv_eq_sign_mul_natAbs (n d : Int) :
    tdiv n d = n.sign * d.sign * (n.natAbs / d.natAbs : Nat) := by
  have hparts : tdiv n d = (tdiv n d).sign * (n.natAbs / d.natAbs : Nat) := by
    conv_lhs => rw [← Int.sign_mul_natAbs (tdiv n d), tdiv, Int.natAbs_tdiv]
    rfl
  rw [hparts, tdiv, Int.sign_tdiv]
  split
  case isTrue hlt => simp [Nat.div_eq_of_lt hlt]
  case isFalse => rfl

theorem floor_abs_div_abs (n d : Int) : ⌊(|n| : ℚ) / |d|⌋ = (n.natAbs / d.natAbs : Nat) := by
  rw [Int.natCast_div, ← Rat.floor_natCast_div_natCast]
  simp

theorem tdiv_eq_sign_mul_floor (n d : Int) : tdiv n d = n.sign * d.sign * ⌊(|n| : ℚ) / |d|⌋ := by
  rw [tdiv_eq_sign_mul_natAbs, floor_abs_div_abs]

theorem tdiv_zero_left (d : Int) : tdiv 0 d = 0 := Int.zero_tdiv d

theorem tdiv_zero_right (n : Int) : tdiv n 0 = 0 := Int.tdiv_zero n

/-! The quantities of DIV outside the domain of R146 and R147. -/

theorem fractionDigits_eq_zero {f : Fields W} (h : f.td ≤ f.id) : fractionDigits f = 0 :=
  Nat.sub_eq_zero_of_le h

/-- R147: with no precision given, the pre-scale is that of all the fraction digits. -/
theorem kEff_of_ke_false {f : Fields W} (h : f.ke = false) : kEff f = fractionDigits f :=
  if_neg (Bool.eq_false_iff.mp h)

theorem divExact_eq_shl_tdiv (f : Fields W) (k : Nat) :
    divExact f k = shl (tdiv (shl (S f.td f.a) k) (S f.td f.b)) (fractionDigits f - k) := rfl

/-- For a zero divisor the adjusted integer is 0. -/
theorem divExact_of_zero_divisor {f : Fields W} (htd : 1 ≤ f.td) (hb : M f.td f.b = 0) (k : Nat) :
    divExact f k = 0 := by
  rw [divExact_eq_shl_tdiv, (S_eq_zero_iff htd f.b).mpr hb, tdiv_zero_right, shl_eq_mul_two_pow, zero_mul]

/-- From the full pre-scale on, no residual shift is left. -/
theorem divExact_of_fractionDigits_le {f : Fields W} {k : Nat} (hk : fractionDigits f ≤ k) :
    divExact f k = tdiv (S f.td f.a * 2 ^ k) (S f.td f.b) := by
  rw [divExact_eq_shl_tdiv, Nat.sub_eq_zero_of_le hk, shl_zero, shl_eq_mul_two_pow]

/-! The obligations of 00_scope.md. -/

/-- Settles O28: the range and the residue of `S` determine it, so narrowing gives back exactly the
numbers in range. -/
theorem valueFunctions : Obligations.ValueFunctions := by
  unfold Obligations.ValueFunctions
  intro W td x z h hW
  obtain ⟨hlow, hhigh⟩ := S_inRange h x
  exact ⟨M_lt td x, S_emod td x, hlow, hhigh, (S_neg_iff td x).symm, narrow_toNat_int hW z,
    inRange_iff_S_narrow h hW z⟩

/-- Settles O29: each operation equals its floor form; the spec's examples are evaluated. -/
theorem divisionAndShifts : Obligations.DivisionAndShifts := by
  unfold Obligations.DivisionAndShifts
  refine ⟨?floorForm, shl_eq_mul_two_pow, asr_eq_floor, ?zeroDividend, ?examples⟩
  case floorForm => exact fun n d _ => tdiv_eq_sign_mul_floor n d
  case zeroDividend => exact fun d _ => tdiv_zero_left d
  case examples => decide

/-- Settles O60, by the value of each function outside the domain its rule gives it. -/
theorem valuesOutsideTheirDomain : Obligations.ValuesOutsideTheirDomain := by
  unfold Obligations.ValuesOutsideTheirDomain
  refine ⟨tdiv_zero_right, ?fraction, ?zeroDivisor, ?residual⟩
  case fraction =>
    intro W f h
    have hzero := fractionDigits_eq_zero h.le
    exact ⟨hzero, fun hke => (kEff_of_ke_false hke).trans hzero⟩
  case zeroDivisor =>
    intro W f k hvalid hb
    obtain ⟨htd, -, -⟩ := hvalid
    exact divExact_of_zero_divisor htd hb k
  case residual => exact fun W f k hk => divExact_of_fractionDigits_le hk

end Sys2Proof.Machine
end

section
/-! What one step and one served command do, what a response can be, and the invariant of the ports
(10_state.md sections 1 to 4). -/

namespace Sys2Proof.Machine

variable {W : Nat}

/-- R57, R58: an operation code selects one of the six operations or is reserved. -/
theorem opcode_cases (op : BitVec 3) :
    op = 0 ∨ op = 1 ∨ op = 2 ∨ op = 3 ∨ op = 4 ∨ op = 5 ∨ 6 ≤ op.toNat := by
  revert op
  decide

/-- R169: a reserved operation code is answered before any field is read. -/
theorem transact_reserved {op : BitVec 3} (h : 6 ≤ op.toNat) (f : Fields W) :
    transact op f = raise .illegalOp := by
  have htwo : op = 6 ∨ op = 7 := by
    revert op
    decide
  rcases htwo with rfl | rfl <;> rfl

/-- R8: a step drives the answer to the command at the input ports. -/
theorem step_eq_finish (s : State) : step s = finish (answerTo s.cmd) s := by
  unfold step
  cases hdec : decodeWord s.cmd with
  | some i =>
    obtain ⟨hop, hfields⟩ := decodeWord_some hdec
    change exec i s = _
    rw [exec_eq_finish, hop, hfields]
    rfl
  | none =>
    change finish (raise .illegalOp) s = _
    rw [answerTo, transactWord, transact_reserved (decodeWord_none hdec)]

theorem step_eq_next_iff {s t : State} : step s = .next t ↔ t = s.respond (answerTo s.cmd) := by
  rw [step_eq_finish, finish_eq_next_iff]

@[simp] theorem step_present (s : State) (w : CmdWord) : step (s.present w) = .next (s.present w) :=
  step_eq_next_iff.mpr rfl

/-- Serving a command presents it and keeps its answer. -/
theorem serve_cons (w : CmdWord) (ws : List CmdWord) (s : State) :
    serve (w :: ws) s = (answerTo w :: (serve ws (s.present w)).1, (serve ws (s.present w)).2) := by
  rw [serve, step_present]
  rfl

/-- What holds of every state in which a command has just been presented, serving commands keeps. -/
theorem serve_preserves {P : State → Prop} (hpresent : ∀ (s : State) w, P (s.present w)) (ws : List CmdWord)
    {s : State} (hs : P s) : P (serve ws s).2 := by
  induction ws generalizing s with
  | nil => exact hs
  | cons w ws ih =>
    rw [serve_cons]
    exact ih (hpresent s w)

theorem serve_fst (ws : List CmdWord) (s : State) : (serve ws s).1 = ws.map answerTo := by
  induction ws generalizing s with
  | nil => rfl
  | cons w ws ih => rw [serve_cons, ih, List.map_cons]

/-! What a response can be. -/

/-- The exact integer that ADD, SUB, MUL or DIV, by its operation code, narrows (R25). -/
def exactResult (op : BitVec 3) (f : Fields W) : Int :=
  match op.toNat with
  | 2 => S f.td f.a + S f.td f.b
  | 3 => S f.td f.a - S f.td f.b
  | 4 => mulExact f
  | _ => divExact f (kEff f)

/-- R81: an operation with an invalid Scheme fails before any operand is read. -/
theorem transact_of_invalid {op : BitVec 3} {f : Fields W} (hop : op.toNat < 6) (hv : ¬ ValidScheme f) :
    transact op f = raise .invalidScheme := by
  rcases opcode_cases op with rfl | rfl | rfl | rfl | rfl | rfl | hreserved
  case inr.inr.inr.inr.inr.inr => omega
  all_goals exact withScheme_of_invalid hv _

/-- A command fails, or MKSCHEME or DECODE answers without overflow, or an arithmetic operation answers
its exact integer narrowed. -/
theorem transact_cases (op : BitVec 3) (f : Fields W) :
    (∃ e, e ≠ .ok ∧ transact op f = raise e) ∨
    (ValidScheme f ∧ op.toNat < 2 ∧ ∃ x, transact op f = answer f false x) ∨
    (ValidScheme f ∧ 2 ≤ op.toNat ∧ transact op f = answerNarrowed f (exactResult op f)) := by
  by_cases hv : ValidScheme f
  · rcases opcode_cases op with rfl | rfl | rfl | rfl | rfl | rfl | hreserved
    · exact .inr (.inl ⟨hv, by decide, 0, withScheme_of_valid hv _⟩)
    · exact .inr (.inl ⟨hv, by decide, sextLow f.td f.a, withScheme_of_valid hv _⟩)
    · exact .inr (.inr ⟨hv, by decide, withScheme_of_valid hv _⟩)
    · exact .inr (.inr ⟨hv, by decide, withScheme_of_valid hv _⟩)
    · exact .inr (.inr ⟨hv, by decide, withScheme_of_valid hv _⟩)
    · rcases divRsp_cases f with ⟨hinvalid, -⟩ | ⟨-, -, hz⟩ | ⟨-, -, -, hp⟩ | ⟨-, -, -, hok⟩
      · exact absurd hv hinvalid
      · exact .inl ⟨.divisionByZero, by decide, hz⟩
      · exact .inl ⟨.invalidPrecision, by decide, hp⟩
      · exact .inr (.inr ⟨hv, by decide, hok⟩)
    · exact .inl ⟨.illegalOp, by decide, transact_reserved hreserved f⟩
  · by_cases hop : op.toNat < 6
    · exact .inl ⟨.invalidScheme, by decide, transact_of_invalid hop hv⟩
    · exact .inl ⟨.illegalOp, by decide, transact_reserved (Nat.le_of_not_lt hop) f⟩

/-- What answers any command is legal (R63). -/
theorem transact_legal (op : BitVec 3) (f : Fields W) : (transact op f).Legal := by
  rcases transact_cases op f with ⟨e, -, h⟩ | ⟨hv, -, x, h⟩ | ⟨hv, -, h⟩ <;> rw [h]
  · exact ⟨fun _ => rfl, Nat.zero_le W⟩
  · exact ⟨fun hne => absurd rfl hne, fractionDigits_le hv⟩
  · exact ⟨fun hne => absurd rfl hne, fractionDigits_le hv⟩

/-! The invariant of the output ports. -/

theorem present_legal (s : State) (w : CmdWord) : (s.present w).Legal :=
  transact_legal _ _

theorem present_settled (s : State) (w : CmdWord) : (s.present w).Settled := rfl

/-- A step leaves the ports as presenting the command already there would: legal and settled. -/
theorem step_eq_present {s t : State} (h : step s = .next t) : t = s.present s.cmd :=
  step_eq_next_iff.mp h

theorem State.Settled.respond_answerTo {s : State} (h : s.Settled) : s.respond (answerTo s.cmd) = s :=
  state_ext rfl h.symm

/-- Settles O14: presenting a command makes the outputs legal and settled, a step does the same with the
command that stands at the ports, and serving presents one command after the other. -/
theorem outputPortsStayLegal : Obligations.OutputPortsStayLegal := by
  unfold Obligations.OutputPortsStayLegal
  refine ⟨?present, ?step, ?settledStep, ?serve⟩
  case present => exact fun s w => ⟨present_legal s w, present_settled s w⟩
  case step =>
    intro s t _ h
    rw [step_eq_present h]
    exact ⟨present_legal _ _, present_settled _ _⟩
  case settledStep =>
    intro s t hs h
    have hst : t = s := (step_eq_next_iff.mp h).trans hs.respond_answerTo
    exact ⟨hst ▸ hs, hst⟩
  case serve =>
    exact fun ws s hs => ⟨serve_preserves present_legal ws hs, serve_preserves present_settled ws⟩

/-- Settles O15: the answer to the all-zero word is evaluated. -/
theorem resetPortsAreLegalAndSettled : Obligations.ResetPortsAreLegalAndSettled := by
  unfold Obligations.ResetPortsAreLegalAndSettled
  have hsettled : State.reset.Settled := by
    change State.reset.rsp = answerTo State.reset.cmd
    decide
  refine ⟨?_, hsettled⟩
  rw [State.Legal, hsettled]
  exact transact_legal _ _

/-- Settles O10: an operation ends by driving the response of its command, whatever the state. -/
theorem execWritesOnlyTheOutputPorts : Obligations.ExecWritesOnlyTheOutputPorts := by
  unfold Obligations.ExecWritesOnlyTheOutputPorts
  intro i s t h
  rw [exec_next h]
  exact ⟨respond_cmd _ _, exec_eq_finish i⟩

/-- Settles O12: each command served is answered by its word alone, so reordering the commands reorders
the pairs of command and answer. -/
theorem commandsAreAnsweredIndependently : Obligations.CommandsAreAnsweredIndependently := by
  unfold Obligations.CommandsAreAnsweredIndependently
  refine ⟨serve_fst, fun ws vs s t hperm => ?_⟩
  have hzip : ∀ l : List CmdWord, l.zip (l.map answerTo) = l.map fun w => (w, answerTo w) :=
    fun _ => List.map_prod_left_eq_zip.symm
  rw [serve_fst, serve_fst, hzip, hzip]
  exact hperm.map _

end Sys2Proof.Machine
end

section
/-! The container bits an operation does not read (10_state.md R23) and the overflow output (R25). -/

namespace Sys2Proof.Machine

variable {W : Nat}

/-- Clearing the bits at or above `td` keeps the bits below. -/
theorem toNat_ofNat_M (td : Nat) (x : BitVec W) : (BitVec.ofNat W (M td x)).toNat = M td x := by
  exact (BitVec.toNat_ofNat _ _).trans (Nat.mod_eq_of_lt ((Nat.mod_le _ _).trans_lt x.isLt))

@[simp] theorem M_ofNat_M (td : Nat) (x : BitVec W) : M td (BitVec.ofNat W (M td x)) = M td x := by
  rw [M, toNat_ofNat_M, M, Nat.mod_mod]

/-- A Scheme's reading of a container is determined by its low `td` bits. -/
theorem S_congr {td : Nat} (h : 1 ≤ td) {x y : BitVec W} (hxy : M td x = M td y) : S td x = S td y := by
  have hsign : sign td x = sign td y := by rw [Bool.eq_iff_iff, sign_iff h, sign_iff h, hxy]
  rw [S, S, hsign, hxy]

theorem sextLow_congr {td : Nat} {x y : BitVec W} (hxy : M td x = M td y) :
    sextLow td x = sextLow td y := by
  have hlow : x.setWidth td = y.setWidth td := BitVec.eq_of_toNat_eq (by simpa [M] using hxy)
  rw [sextLow, sextLow, hlow]

/-- Behind the Scheme check, bodies that agree where the Scheme is valid answer alike. -/
theorem withScheme_congr {f g : Fields W} {x y : Response W} (htd : f.td = g.td) (hid : f.id = g.id)
    (hxy : ValidScheme f → x = y) : withScheme f x = withScheme g y := by
  have hvalid : ValidScheme f ↔ ValidScheme g := by rw [ValidScheme, htd, hid]
  by_cases hv : ValidScheme f
  · rw [withScheme_of_valid hv, withScheme_of_valid (hvalid.mp hv), hxy hv]
  · rw [withScheme_of_invalid hv, withScheme_of_invalid (mt hvalid.mpr hv)]

@[simp] theorem maskContainers_td (f : Fields W) : (maskContainers f).td = f.td := rfl

@[simp] theorem fractionDigits_maskContainers (f : Fields W) :
    fractionDigits (maskContainers f) = fractionDigits f := rfl

@[simp] theorem kEff_maskContainers (f : Fields W) : kEff (maskContainers f) = kEff f := rfl

@[simp] theorem M_maskContainers_a (f : Fields W) : M f.td (maskContainers f).a = M f.td f.a :=
  M_ofNat_M f.td f.a

@[simp] theorem M_maskContainers_b (f : Fields W) : M f.td (maskContainers f).b = M f.td f.b :=
  M_ofNat_M f.td f.b

/-- R23: an operation reads its containers through `S`, so below `td` only. -/
theorem exactResult_maskContainers {f : Fields W} (h : 1 ≤ f.td) (op : BitVec 3) :
    exactResult op (maskContainers f) = exactResult op f := by
  have ha : S f.td (maskContainers f).a = S f.td f.a := S_congr h (M_maskContainers_a f)
  have hb : S f.td (maskContainers f).b = S f.td f.b := S_congr h (M_maskContainers_b f)
  simp only [exactResult, mulExact, divExact, maskContainers_td, fractionDigits_maskContainers,
    kEff_maskContainers, ha, hb]

theorem transact_maskContainers (op : BitVec 3) (f : Fields W) :
    transact op (maskContainers f) = transact op f := by
  have narrowed : ValidScheme f → answerNarrowed (maskContainers f) (exactResult op (maskContainers f))
      = answerNarrowed f (exactResult op f) :=
    fun hv => congrArg (answerNarrowed f) (exactResult_maskContainers hv.1 op)
  rcases opcode_cases op with rfl | rfl | rfl | rfl | rfl | rfl | hreserved
  · rfl
  · exact withScheme_congr rfl rfl fun _ =>
      congrArg (answer f false) (sextLow_congr (M_maskContainers_a f))
  · exact withScheme_congr rfl rfl narrowed
  · exact withScheme_congr rfl rfl narrowed
  · exact withScheme_congr rfl rfl narrowed
  · refine withScheme_congr rfl rfl fun hv => if_congr ?_ rfl (if_congr Iff.rfl rfl (narrowed hv))
    rw [maskContainers_td, M_maskContainers_b]
  · rw [transact_reserved hreserved, transact_reserved hreserved]

/-- Nothing of a narrowed result stands at or above `td`. -/
theorem getLsbD_narrow {td i : Nat} (h : td ≤ W) (hi : td ≤ i) (z : Int) :
    (narrow W td z).getLsbD i = false := by
  have hlt : (narrow W td z).toNat < 2 ^ td := by
    have := Int.emod_lt_of_pos z (by positivity : (0 : Int) < 2 ^ td)
    rw [← narrow_toNat_int h] at this
    exact_mod_cast this
  exact Nat.testBit_lt_two_pow (hlt.trans_le (Nat.pow_le_pow_right (by decide) hi))

/-- Settles O19: an operation reads a container through `M` alone, and narrows what it writes. -/
theorem containerBitsAboveTheScheme : Obligations.ContainerBitsAboveTheScheme := by
  unfold Obligations.ContainerBitsAboveTheScheme
  refine ⟨fun _ => transact_maskContainers, ?output, ?command⟩
  case output =>
    intro W op f hop hok i hi
    rcases transact_cases op f with ⟨e, he, h⟩ | ⟨-, hlt, -⟩ | ⟨hv, -, h⟩
    · rw [h] at hok
      exact absurd hok he
    · omega
    · rw [h]
      exact getLsbD_narrow hv.2.1 hi _
  case command =>
    intro s t h
    rw [step_eq_next_iff.mp h, respond_cmd]

/-- Settles O20: an error and the answers of MKSCHEME and DECODE carry no overflow; the other answers
narrow the exact result of their operation. -/
theorem overflowOutput : Obligations.OverflowOutput := by
  unfold Obligations.OverflowOutput
  intro W op f
  rcases transact_cases op f with ⟨e, he, h⟩ | ⟨-, hlt, x, h⟩ | ⟨hv, hle, h⟩ <;> rw [h]
  · exact ⟨fun _ => rfl, fun _ => rfl, fun hok => absurd hok he⟩
  · exact ⟨fun _ => rfl, fun _ => rfl, fun _ => by omega⟩
  · refine ⟨fun hne => absurd rfl hne, fun _ => by omega, fun _ _ => ⟨exactResult op f, ?_⟩⟩
    refine ⟨?_, ?_, ?_, ?_, ?_, narrow_toNat_int hv.2.1 _⟩
    case refine_5 =>
      change ovfOf f.td _ = true ↔ _
      rw [ovfOf_iff]
      omega
    all_goals
      rintro rfl
      rfl

end Sys2Proof.Machine
end

section
/-! How far the intermediate values of the operations reach (10_state.md R34). -/

namespace Sys2Proof.Machine

variable {W : Nat}

theorem InRange.abs_le_half {td : Nat} {z : Int} (h : InRange td z) : |z| ≤ 2 ^ (td - 1) :=
  abs_le.mpr ⟨h.1, by have := h.2; omega⟩

theorem InRange.mono {m n : Nat} (hmn : m ≤ n) {z : Int} (h : InRange m z) : InRange n z := by
  obtain ⟨hlow, hhigh⟩ := h
  have hpow : (2 : Int) ^ (m - 1) ≤ 2 ^ (n - 1) := pow_le_pow_right₀ (by decide) (by omega)
  constructor <;> omega

/-- A magnitude of at most `2^m` takes `m + 2` signed bits. -/
theorem inRange_of_abs_le {m n : Nat} (hmn : m + 2 ≤ n) {z : Int} (h : |z| ≤ 2 ^ m) : InRange n z := by
  obtain ⟨hlow, hhigh⟩ := abs_le.mp h
  have hpow : (2 : Int) ^ m < 2 ^ (n - 1) := pow_lt_pow_right₀ (by decide) (by omega)
  constructor <;> omega

theorem abs_shl (z : Int) (s : Nat) : |shl z s| = |z| * 2 ^ s := by
  rw [shl_eq_mul_two_pow, abs_mul, abs_of_nonneg (by positivity : (0 : Int) ≤ 2 ^ s)]

theorem abs_tdiv_le (n d : Int) : |tdiv n d| ≤ |n| := by
  rw [tdiv, Int.abs_eq_natAbs, Int.abs_eq_natAbs]
  exact_mod_cast Int.natAbs_tdiv_le_natAbs n d

/-- Scaling and dividing never exceeds the dividend scaled by all the fraction digits. -/
theorem abs_divExact_le {f : Fields W} {k : Nat} (hk : k ≤ fractionDigits f) :
    |divExact f k| ≤ |S f.td f.a| * 2 ^ fractionDigits f := by
  calc |divExact f k|
      = |tdiv (shl (S f.td f.a) k) (S f.td f.b)| * 2 ^ (fractionDigits f - k) := abs_shl _ _
    _ ≤ |shl (S f.td f.a) k| * 2 ^ (fractionDigits f - k) :=
        mul_le_mul_of_nonneg_right (abs_tdiv_le _ _) (by positivity)
    _ = |S f.td f.a| * 2 ^ fractionDigits f := by
        rw [abs_shl, mul_assoc, ← pow_add, Nat.add_sub_cancel' hk]

section
variable {f : Fields W} (hv : ValidScheme f)
include hv

theorem half_le_half_container : (2 : Int) ^ (f.td - 1) ≤ 2 ^ (W - 1) :=
  pow_le_pow_right₀ (by decide) (Nat.sub_le_sub_right hv.2.1 1)

theorem abs_S_mul_two_pow_le {k : Nat} (hk : k ≤ fractionDigits f) (x : BitVec W) :
    |S f.td x| * 2 ^ k ≤ 2 ^ (f.td - 1 + fractionDigits f) := by
  rw [pow_add]
  exact mul_le_mul (S_inRange hv.1 x).abs_le_half (pow_le_pow_right₀ (by decide) hk) (by positivity)
    (by positivity)

theorem full_scale_le : (2 : Int) ^ (f.td - 1 + fractionDigits f) ≤ 2 ^ (2 * W - 1) := by
  obtain ⟨hpos, hW, -⟩ := hv
  exact pow_le_pow_right₀ (by decide) (by unfold fractionDigits; omega)

theorem abs_S_mul_S_le (x y : BitVec W) : |S f.td x * S f.td y| ≤ 2 ^ (2 * W - 2) := by
  have hS : ∀ z : BitVec W, |S f.td z| ≤ 2 ^ (W - 1) :=
    fun z => (S_inRange hv.1 z).abs_le_half.trans (half_le_half_container hv)
  calc |S f.td x * S f.td y| = |S f.td x| * |S f.td y| := abs_mul _ _
    _ ≤ 2 ^ (W - 1) * 2 ^ (W - 1) := mul_le_mul (hS x) (hS y) (abs_nonneg _) (by positivity)
    _ = 2 ^ (2 * W - 2) := by rw [← pow_add]; congr 1; omega

/-- The pre-scaled dividend reaches `2^(2W-1)` on the negative side only. -/
theorem shl_S_inRange {k : Nat} (hk : k ≤ fractionDigits f) (x : BitVec W) :
    InRange (2 * W) (shl (S f.td x) k) := by
  have hbound := (abs_S_mul_two_pow_le hv hk x).trans (full_scale_le hv)
  rw [← abs_shl] at hbound
  have hlt : shl (S f.td x) k < 2 ^ (2 * W - 1) := by
    calc S f.td x * 2 ^ k
        < 2 ^ (f.td - 1) * 2 ^ k := by
          have := (S_inRange hv.1 x).2
          gcongr
          omega
      _ ≤ 2 ^ (f.td - 1) * 2 ^ fractionDigits f := by
          gcongr
          decide
      _ ≤ 2 ^ (2 * W - 1) := by
          rw [← pow_add]
          exact full_scale_le hv
  exact ⟨(abs_le.mp hbound).1, Int.le_sub_one_of_lt hlt⟩

end

/-- Settles O50: each bound is a bound on the magnitude of `S` scaled by at most all the fraction digits. -/
theorem internalWidths : Obligations.InternalWidths := by
  unfold Obligations.InternalWidths
  intro W f k hv hk
  have hscaled := abs_S_mul_two_pow_le hv hk f.a
  refine ⟨(S_inRange hv.1 f.a).abs_le_half, half_le_half_container hv, abs_S_mul_S_le hv f.a f.b,
    (abs_shl _ _).trans_le hscaled, full_scale_le hv, ?_, fun _ => ⟨abs_tdiv_le _ _, abs_divExact_le hk⟩,
    (abs_S_mul_two_pow_le hv le_rfl f.a).trans (full_scale_le hv)⟩
  have hhigh := (shl_S_inRange hv hk f.a).2
  omega

end Sys2Proof.Machine
end

section
/-! The five blocks (10_state.md R28 to R33): what each computes, as integers, at its own width. -/

namespace Sys2Proof.Machine

variable {W DW : Nat}

/-- A number reduced to `n` bits is the number of that residue in the signed range. -/
theorem bmod_two_pow_eq {n : Nat} (hn : 1 ≤ n) {u v : Int} (hv : InRange n v)
    (huv : u % 2 ^ n = v % 2 ^ n) : u.bmod (2 ^ n) = v := by
  have hhalf := two_pow_eq_two_mul_half hn
  obtain ⟨hlow, hhigh⟩ := hv
  have hcong : u.bmod (2 ^ n) = v.bmod (2 ^ n) := by
    rw [Int.bmod_def, Int.bmod_def]
    push_cast
    rw [huv]
  rw [hcong]
  apply Int.bmod_eq_of_le_mul_two <;> push_cast <;> omega

theorem bmod_of_inRange {n : Nat} (hn : 1 ≤ n) {z : Int} (hz : InRange n z) : z.bmod (2 ^ n) = z :=
  bmod_two_pow_eq hn hz rfl

theorem toInt_emod {n m : Nat} (h : m ≤ n) (x : BitVec n) : x.toInt % 2 ^ m = x.toNat % 2 ^ m := by
  have hmod : x.toInt % 2 ^ n = x.toNat % 2 ^ n := by
    rw [BitVec.toInt_eq_toNat_bmod]
    exact_mod_cast Int.bmod_emod
  rw [← Int.emod_emod_of_dvd _ (pow_dvd_pow 2 h), hmod, Int.emod_emod_of_dvd _ (pow_dvd_pow 2 h)]

/-- A left shift that stays in range is R12's `shl`. -/
theorem toInt_shiftLeft_of_inRange {n : Nat} (hn : 1 ≤ n) {x : BitVec n} {s : Nat}
    (h : InRange n (shl x.toInt s)) : (x <<< s).toInt = shl x.toInt s := by
  rw [BitVec.toInt_shiftLeft]
  apply bmod_two_pow_eq hn h
  have hx : x.toInt ≡ x.toNat [ZMOD 2 ^ n] := toInt_emod le_rfl x
  rw [Nat.shiftLeft_eq, shl_eq_mul_two_pow]
  push_cast
  exact (hx.mul_right _).symm

/-- Cutting a container to its low `td` bits reads it as `S` does. -/
theorem toInt_setWidth_eq_S {n td : Nat} (h : 1 ≤ td) (x : BitVec n) : (x.setWidth td).toInt = S td x := by
  rw [BitVec.toInt_setWidth]
  apply bmod_two_pow_eq h (S_inRange h x)
  rw [S_emod, M]
  push_cast
  rfl

theorem toInt_sextLow {td : Nat} (h : 1 ≤ td) (hW : td ≤ W) (x : BitVec W) :
    (sextLow td x).toInt = S td x := by
  rw [sextLow, BitVec.toInt_signExtend_of_le hW, toInt_setWidth_eq_S h]

/-- A sign-extended container still reads as `S`. -/
theorem toInt_signExtend_sextLow {n td : Nat} (h : 1 ≤ td) (hW : td ≤ W) (hn : W ≤ n) (x : BitVec W) :
    ((sextLow td x).signExtend n).toInt = S td x := by
  rw [BitVec.toInt_signExtend_of_le hn, toInt_sextLow h hW]

/-- The narrowing of an exact integer, as the blocks deliver it. -/
def Narrowed.ofInt (W td : Nat) (z : Int) : Narrowed W := { res := narrow W td z, ovf := ovfOf td z }

/-- R30, R33: narrowing a signed number of at least `td` bits is R11's `narrow`, and its overflow output is
R11's `inrange`. -/
theorem narrowBits_eq_ofInt {n td : Nat} (h : 1 ≤ td) (hW : td ≤ W) (hn : td ≤ n) (z : BitVec n) :
    narrowBits W td z = Narrowed.ofInt W td z.toInt := by
  have hmod := toInt_emod hn z
  have hres : (z.setWidth td).setWidth W = narrow W td z.toInt := by
    apply BitVec.eq_of_toNat_eq
    zify
    rw [narrow_toNat_int hW, hmod, BitVec.toNat_setWidth_of_le hW, BitVec.toNat_setWidth]
    push_cast
    rfl
  have hkept : (z.setWidth td).signExtend n = z ↔ InRange td z.toInt := by
    rw [← BitVec.toInt_inj, BitVec.toInt_signExtend_of_le hn, toInt_setWidth_eq_S h]
    have hin := S_inRange h z
    constructor
    · intro heq
      rwa [heq] at hin
    · intro hz
      apply hin.eq_of_emod_eq h hz
      rw [S_emod, hmod, M]
      push_cast
      rfl
  have hovf : ((z.setWidth td).signExtend n != z) = ovfOf td z.toInt := by
    rw [Bool.eq_iff_iff, bne_iff_ne, ovfOf_iff, ne_eq, hkept]
  rw [narrowBits, hres, hovf, Narrowed.ofInt]

section
variable {td id : BitVec DW} (hv : Valid W td.toNat id.toNat)
include hv

/-- R29: on a valid Scheme the decoder gives `q`, the container read as `S` reads it, and whether it is
zero. -/
theorem fixedPointDecoder_of_valid (x : BitVec W) :
    fixedPointDecoder td id x =
      { schemeOk := true, q := td - id, sx := sextLow td.toNat x, isZero := decide (M td.toNat x = 0) } := by
  have hzero : (x.setWidth td.toNat == 0) = decide (M td.toNat x = 0) := by
    rw [Bool.eq_iff_iff, beq_iff_eq, decide_eq_true_iff, ← BitVec.toNat_inj, BitVec.toNat_setWidth]
    rfl
  rw [fixedPointDecoder, if_pos hv, hzero, sextLow]

theorem toNat_td_sub_id : (td - id).toNat = td.toNat - id.toNat := BitVec.toNat_sub_of_le hv.2.2

/-- R30: the sum and the difference of two containers fit `W + 1` bits. -/
theorem fixedPointAdder_eq_ofInt (x y : BitVec W) (sub : Bool) :
    fixedPointAdder (sextLow td.toNat x) (sextLow td.toNat y) sub td = Narrowed.ofInt W td.toNat
      (if sub then S td.toNat x - S td.toNat y else S td.toNat x + S td.toNat y) := by
  obtain ⟨htd, hW, -⟩ := hv
  have hhalf : (2 : Int) ^ W = 2 * 2 ^ (W - 1) := two_pow_eq_two_mul_half (htd.trans hW)
  obtain ⟨hxlow, hxhigh⟩ := (S_inRange htd x).mono hW
  obtain ⟨hylow, hyhigh⟩ := (S_inRange htd y).mono hW
  have hsext := toInt_signExtend_sextLow htd hW (Nat.le_succ W)
  rw [fixedPointAdder, narrowBits_eq_ofInt htd hW (by omega)]
  congr 1
  cases sub with
  | true =>
    change BitVec.toInt (_ - _) = S td.toNat x - S td.toNat y
    rw [BitVec.toInt_sub, hsext, hsext]
    refine bmod_of_inRange (Nat.le_add_left 1 W) ⟨?_, ?_⟩ <;> rw [Nat.add_sub_cancel] <;> omega
  | false =>
    change BitVec.toInt (_ + _) = S td.toNat x + S td.toNat y
    rw [BitVec.toInt_add, hsext, hsext]
    refine bmod_of_inRange (Nat.le_add_left 1 W) ⟨?_, ?_⟩ <;> rw [Nat.add_sub_cancel] <;> omega

end

/-- R33, POST_MUL. -/
theorem toInt_scalePostMul (p : BitVec (2 * W)) (q : BitVec DW) :
    (scalePostMul p q).toInt = postMul p.toInt q.toNat := by
  rw [scalePostMul, BitVec.toInt_signExtend_of_le (Nat.le_succ _), BitVec.toInt_sshiftRight,
    Int.shiftRight_eq_div_pow]
  rfl

section
variable {f : Fields W} (hv : ValidScheme f)
include hv

/-- R31: the product fits `2W` bits. -/
theorem toInt_fixedPointMultiplier :
    (fixedPointMultiplier (sextLow f.td f.a) (sextLow f.td f.b)).toInt = S f.td f.a * S f.td f.b := by
  have ⟨htd, hW, _⟩ := hv
  have hsext := toInt_signExtend_sextLow (n := 2 * W) htd hW (by omega)
  rw [fixedPointMultiplier, BitVec.toInt_mul, hsext, hsext]
  exact bmod_of_inRange (n := 2 * W) (by omega) (inRange_of_abs_le (by omega) (abs_S_mul_S_le hv f.a f.b))

/-- R33, PRE_DIV: the pre-scaled dividend fits `2W` bits. -/
theorem toInt_scalePreDiv {k : BitVec DW} (hk : k.toNat ≤ fractionDigits f) :
    (scalePreDiv (sextLow f.td f.a) k).toInt = preDiv (S f.td f.a) k.toNat := by
  have ⟨htd, hW, _⟩ := hv
  have hsext := toInt_signExtend_sextLow (n := 2 * W) htd hW (by omega) f.a
  have hin := shl_S_inRange hv hk f.a
  rw [← hsext] at hin
  rw [scalePreDiv, toInt_shiftLeft_of_inRange (by omega) hin, hsext, preDiv]

/-- R32: the quotient fits `2W + 1` bits. -/
theorem toInt_quot {k : BitVec DW} (hk : k.toNat ≤ fractionDigits f) :
    (fixedPointDivider (scalePreDiv (sextLow f.td f.a) k) (sextLow f.td f.b) false).quot.toInt
      = tdiv (preDiv (S f.td f.a) k.toNat) (S f.td f.b) := by
  have ⟨htd, hW, _⟩ := hv
  have hbound : |tdiv (preDiv (S f.td f.a) k.toNat) (S f.td f.b)| ≤ 2 ^ (2 * W - 1) :=
    (abs_tdiv_le _ _).trans (shl_S_inRange hv hk f.a).abs_le_half
  change BitVec.toInt (BitVec.sdiv _ _) = _
  rw [BitVec.toInt_sdiv, BitVec.toInt_signExtend_of_le (Nat.le_succ _), toInt_scalePreDiv hv hk,
    toInt_signExtend_sextLow htd hW (by omega)]
  exact bmod_of_inRange (n := 2 * W + 1) (by omega) (inRange_of_abs_le (by omega) hbound)

/-- R33, POST_DIV: the aligned quotient fits `2W + 1` bits. -/
theorem toInt_scalePostDiv {k s : BitVec DW} (hk : k.toNat ≤ fractionDigits f)
    (hs : s.toNat = fractionDigits f - k.toNat) :
    (scalePostDiv (fixedPointDivider (scalePreDiv (sextLow f.td f.a) k) (sextLow f.td f.b) false).quot s).toInt
      = divExact f k.toNat := by
  have hin : InRange (2 * W + 1) (divExact f k.toNat) :=
    inRange_of_abs_le (by omega)
      (((abs_divExact_le hk).trans (abs_S_mul_two_pow_le hv le_rfl f.a)).trans (full_scale_le hv))
  rw [divExact, postDiv, ← toInt_quot hv hk, ← hs] at hin ⊢
  exact toInt_shiftLeft_of_inRange (by omega) hin

end

end Sys2Proof.Machine
end

section
/-! The blocks composed (10_state.md R28) drive the response of the total function. -/

namespace Sys2Proof.Machine

variable {W DW : Nat}

/-- R28: a response at the output ports. -/
def Response.ports (DW : Nat) (r : Response W) : RspPorts W DW where
  status := r.status.code
  ovf := r.ovf
  q := BitVec.ofNat DW r.q
  res := r.res

/-- R62: the response word is the output ports side by side. -/
theorem word_eq_ports (r : Response W) :
    r.word DW = (r.ports DW).status ++ BitVec.ofBool (r.ports DW).ovf ++ (r.ports DW).q ++ (r.ports DW).res :=
  rfl

theorem ports_raise (e : Status) : (raise e : Response W).ports DW = failPorts e := rfl

/-- R55: the fields of a command as the input ports carry them. -/
abbrev portFields (ke : Bool) (k td id : BitVec DW) (a b : BitVec W) : Fields W :=
  { ke := ke, k := k.toNat, td := td.toNat, id := id.toNat, a := a, b := b }

@[simp] theorem fixedPointDivider_dz (n : BitVec (2 * W)) (sb : BitVec W) (z : Bool) :
    (fixedPointDivider n sb z).dz = z := rfl

section
variable {ke : Bool} {k td id : BitVec DW} {a b : BitVec W} (hv : Valid W td.toNat id.toNat)
include hv

/-- A successful answer at the output ports carries the decoder's `q`. -/
theorem ports_answer (ovf : Bool) (res : BitVec W) :
    (answer (portFields ke k td id a b) ovf res).ports DW = okPorts (td - id) { res := res, ovf := ovf } := by
  have hq : BitVec.ofNat DW (td.toNat - id.toNat) = td - id := by
    rw [← toNat_td_sub_id hv, BitVec.ofNat_toNat, BitVec.setWidth_eq]
  change RspPorts.mk _ _ (BitVec.ofNat DW (td.toNat - id.toNat)) _ = _
  rw [hq]
  rfl

theorem ports_answerNarrowed (z : Int) :
    (answerNarrowed (portFields ke k td id a b) z).ports DW = okPorts (td - id) (Narrowed.ofInt W td.toNat z) :=
  ports_answer hv _ _

/-- R32, R33: the multiplication path narrows the exact shifted product. -/
theorem mulPath_eq_ports :
    okPorts (td - id) (scaleNarrow
        (scalePostMul (fixedPointMultiplier (sextLow td.toNat a) (sextLow td.toNat b)) (td - id)) td)
      = (answerNarrowed (portFields ke k td id a b) (mulExact (portFields ke k td id a b))).ports DW := by
  have hprod := toInt_fixedPointMultiplier (f := portFields ke k td id a b) hv
  have ⟨htd, hW, _⟩ := hv
  rw [ports_answerNarrowed hv, scaleNarrow, narrowBits_eq_ofInt htd hW (by omega), toInt_scalePostMul,
    hprod, toNat_td_sub_id hv]
  rfl

/-- R33, 44_divide.md R146: for `k ≤ q` the division path narrows the exact aligned quotient. -/
theorem scaleNarrow_divPath {kb : BitVec DW} (hk : kb ≤ td - id) :
    scaleNarrow (scalePostDiv (fixedPointDivider (scalePreDiv (sextLow td.toNat a) kb)
        (sextLow td.toNat b) false).quot (td - id - kb)) td
      = Narrowed.ofInt W td.toNat (divExact (portFields ke k td id a b) kb.toNat) := by
  have ⟨htd, hW, _⟩ := hv
  have hq : (td - id).toNat = fractionDigits (portFields ke k td id a b) := toNat_td_sub_id hv
  have hz := toInt_scalePostDiv (f := portFields ke k td id a b) hv (hq ▸ hk)
    (hq ▸ BitVec.toNat_sub_of_le hk)
  rw [scaleNarrow, narrowBits_eq_ofInt htd hW (by omega), hz]

/-- R32, R33, 44_divide.md R146: the division path gives DIV's errors in their order, or the aligned
quotient narrowed. -/
theorem divPath_eq_ports :
    divPath ke k td (fixedPointDecoder (W := W) td id a) (fixedPointDecoder td id b)
      = (divRsp (portFields ke k td id a b)).ports DW := by
  have hk : (if ke then k else td - id).toNat = kEff (portFields ke k td id a b) := by
    rw [apply_ite BitVec.toNat, toNat_td_sub_id hv]
    rfl
  have hult : (td - id).ult (if ke then k else td - id) = true ↔
      fractionDigits (portFields ke k td id a b) < kEff (portFields ke k td id a b) := by
    rw [BitVec.ult_iff_lt, BitVec.lt_def, hk, toNat_td_sub_id hv]
    rfl
  rw [divPath, fixedPointDecoder_of_valid hv, fixedPointDecoder_of_valid hv]
  rcases divRsp_cases (portFields ke k td id a b) with
    ⟨hinvalid, -⟩ | ⟨-, hz, h⟩ | ⟨-, hz, hlt, h⟩ | ⟨-, hz, hle, h⟩
  · exact absurd hv hinvalid
  · rw [h, ports_raise]
    simp only [hz, fixedPointDivider_dz, decide_true, if_true]
  · rw [h, ports_raise]
    simp only [hz, fixedPointDivider_dz, decide_false, Bool.false_eq_true, if_false]
    exact if_pos (hult.mpr hlt)
  · have hnot := mt hult.mp (Nat.not_lt.mpr hle)
    have hkb : (if ke then k else td - id) ≤ td - id := by
      rwa [BitVec.ult_iff_lt, BitVec.not_lt] at hnot
    rw [h, ports_answerNarrowed hv, ← hk, ← scaleNarrow_divPath hv hkb]
    simp only [hz, fixedPointDivider_dz, decide_false, Bool.false_eq_true, if_false]
    exact if_neg hnot

end

theorem fixedPointDecoder_of_invalid {td id : BitVec DW} (hv : ¬ Valid W td.toNat id.toNat) (x : BitVec W) :
    fixedPointDecoder td id x = { schemeOk := false, q := 0, sx := 0, isZero := false } := if_neg hv

/-- R28: the composed blocks drive the response of the total function, for every width. -/
theorem blocksTop_eq_ports (op : BitVec 3) (ke : Bool) (k td id : BitVec DW) (a b : BitVec W) :
    blocksTop op ke k td id a b = (transact op (portFields ke k td id a b)).ports DW := by
  by_cases hop : op.toNat < 6
  case neg =>
    have hreserved := Nat.le_of_not_lt hop
    rw [transact_reserved hreserved, blocksTop, if_pos hreserved, ports_raise]
  by_cases hv : Valid W td.toNat id.toNat
  case neg =>
    rw [transact_of_invalid hop hv, blocksTop, if_neg (Nat.not_le.mpr hop), fixedPointDecoder_of_invalid hv]
    rfl
  have hvalid : ∀ body, (withScheme (portFields ke k td id a b) body).ports DW = body.ports DW :=
    fun body => congrArg (Response.ports DW) (withScheme_of_valid hv body)
  have hda := fixedPointDecoder_of_valid hv a
  have hdb := fixedPointDecoder_of_valid hv b
  rcases opcode_cases op with rfl | rfl | rfl | rfl | rfl | rfl | hreserved
  · refine Eq.trans ?_ (hvalid _).symm
    rw [ports_answer hv, blocksTop, hda]
    rfl
  · refine Eq.trans ?_ (hvalid _).symm
    rw [ports_answer hv, blocksTop, hda]
    rfl
  · refine Eq.trans ?_ (hvalid _).symm
    rw [ports_answerNarrowed hv, blocksTop, hda, hdb]
    exact congrArg (okPorts (td - id)) (fixedPointAdder_eq_ofInt hv a b false)
  · refine Eq.trans ?_ (hvalid _).symm
    rw [ports_answerNarrowed hv, blocksTop, hda, hdb]
    exact congrArg (okPorts (td - id)) (fixedPointAdder_eq_ofInt hv a b true)
  · refine Eq.trans ?_ (hvalid _).symm
    rw [← mulPath_eq_ports hv, blocksTop, hda, hdb]
    rfl
  · change _ = (divRsp _).ports DW
    rw [← divPath_eq_ports hv, blocksTop, hda]
    rfl
  · omega

/-- Settles O51: the response word is the output ports side by side. -/
theorem blocksComputeTheResponseWord : Obligations.BlocksComputeTheResponseWord := by
  unfold Obligations.BlocksComputeTheResponseWord
  intro W DW _ w
  rw [word_eq_ports, transactWord, blocksWord, blocksTop_eq_ports]
  rfl

end Sys2Proof.Machine
end

section
/-! The input ports are the fields of the command word (30_encoding.md R55). -/

namespace Sys2Proof

theorem ofBool_getLsbD {n : Nat} (x : BitVec n) (i : Nat) : BitVec.ofBool (x.getLsbD i) = x.extractLsb' i 1 := by
  apply BitVec.eq_of_getLsbD_eq
  intro j hj
  obtain rfl : j = 0 := by omega
  simp

/-- R55: the fields of a command word, concatenated in their order, are the word. -/
theorem packCmd_fieldsOf {W DW : Nat} (w : BitVec (cmdBits W DW)) :
    packCmd DW (opOf W DW w) (fieldsOf W DW w) = w := by
  simp only [packCmd, opOf, fieldsOf, ofBool_getLsbD, BitVec.ofNat_toNat, BitVec.setWidth_eq]
  rw [BitVec.extractLsb'_append_extractLsb'_eq_extractLsb', BitVec.extractLsb'_append_extractLsb'_eq_extractLsb',
    BitVec.extractLsb'_append_extractLsb'_eq_extractLsb', BitVec.extractLsb'_append_extractLsb'_eq_extractLsb',
    BitVec.extractLsb'_append_extractLsb'_eq_extractLsb', BitVec.extractLsb'_append_extractLsb'_eq_extractLsb',
    BitVec.extractLsb'_eq_self]
  all_goals omega

end Sys2Proof

namespace Sys2Proof.Machine

/-- Settles O59: the fields of a word make up the word, a step changes nothing where the outputs already
follow, and the composed blocks drive the response of the total function. -/
theorem outputsFollowTheInputs : Obligations.OutputsFollowTheInputs := by
  unfold Obligations.OutputsFollowTheInputs
  refine ⟨?inputPorts, fun s w => ⟨present_cmd s w, present_rsp s w, step_present s w⟩, ?outputs⟩
  case inputPorts =>
    intro s
    have hword := packCmd_fieldsOf (W := Config.W) (DW := Config.DW) s.cmd
    simp only [packCmd, fieldsOf, BitVec.ofNat_toNat, BitVec.setWidth_eq] at hword
    exact hword
  case outputs =>
    intro s t h
    have ht : t.Settled := by
      rcases h with ⟨w, rfl⟩ | h
      · exact present_settled s w
      · rw [step_eq_present h]
        exact present_settled s s.cmd
    refine ⟨ht, ?_⟩
    rw [blocksTop_eq_ports]
    exact congrArg (Response.ports Config.DW) ht

end Sys2Proof.Machine
end

section
/-! A step is the decoded command and nothing more (20_memory.md R43, R49; 30_encoding.md R58). -/

namespace Sys2Proof

/-- R55: what is read from a field of the command word fits that field. -/
theorem fieldsOf_wellFormed {W DW : Nat} (w : BitVec (cmdBits W DW)) : (fieldsOf W DW w).WellFormed DW :=
  ⟨BitVec.isLt _, BitVec.isLt _, BitVec.isLt _⟩

theorem decodeWord_wellFormed {w : CmdWord} {i : Instr} (h : decodeWord w = some i) : i.WellFormed := by
  obtain ⟨-, hfields⟩ := decodeWord_some h
  rw [Instr.WellFormed, hfields]
  exact fieldsOf_wellFormed w

end Sys2Proof

namespace Sys2Proof.Machine

theorem step_of_decode_some {s : State} {i : Instr} (h : decodeWord s.cmd = some i) : step s = exec i s := by
  rw [step, h]

theorem step_of_decode_none {s : State} (h : decodeWord s.cmd = none) : step s = takeError .illegalOp s := by
  rw [step, h]

/-- Settles O7: by what the word at the input ports decodes to, which for a table word presented there
is what the table word decodes to. -/
theorem stepRunsTheDecodedCommand : Obligations.StepRunsTheDecodedCommand := by
  unfold Obligations.StepRunsTheDecodedCommand
  refine ⟨?command, fun s h => step_of_decode_none h, ?tableWord⟩
  case command => exact fun s i h => ⟨decodeWord_wellFormed h, step_of_decode_some h⟩
  case tableWord =>
    intro s nbits w i h
    have hcmd : (s.withFetchWord nbits w).cmd = tableWord nbits w := present_cmd s _
    exact step_of_decode_some (hcmd ▸ h)

/-- Settles O11: a step leaves the ports as presenting its command would, and a step after that changes
nothing. -/
theorem stepIsIdempotent : Obligations.StepIsIdempotent := by
  unfold Obligations.StepIsIdempotent
  intro s t h
  rw [step_eq_present h]
  exact step_present s s.cmd

end Sys2Proof.Machine
end

section
/-! The command word and the response word (30_encoding.md R55, R62): the value of each, and that its fields
determine it and are determined by it. -/

namespace Sys2Proof

variable {W DW : Nat}

theorem append_eq_append {m n : Nat} {x x' : BitVec m} {y y' : BitVec n} (h : x ++ y = x' ++ y') :
    x = x' ∧ y = y' := by
  have hlow : y = y' := by
    simpa only [BitVec.extractLsb'_append_eq_right] using congrArg (BitVec.extractLsb' 0 n) h
  subst hlow
  exact ⟨(BitVec.append_left_inj y).mp h, rfl⟩

theorem toNat_append_eq {m n : Nat} (x : BitVec m) (y : BitVec n) :
    (x ++ y).toNat = x.toNat * 2 ^ n + y.toNat := by
  rw [BitVec.toNat_append, ← Nat.shiftLeft_add_eq_or_of_lt y.isLt, Nat.shiftLeft_eq]

theorem toNat_ofNat_of_lt {n v : Nat} (h : v < 2 ^ n) : (BitVec.ofNat n v).toNat = v :=
  (BitVec.toNat_ofNat v n).trans (Nat.mod_eq_of_lt h)

/-- A count that fits its field is read back from it. -/
theorem eq_of_ofNat_eq {n v v' : Nat} (hv : v < 2 ^ n) (hv' : v' < 2 ^ n)
    (h : BitVec.ofNat n v = BitVec.ofNat n v') : v = v' := by
  rw [← toNat_ofNat_of_lt hv, h, toNat_ofNat_of_lt hv']

/-- R55: the value of the command word. -/
theorem toNat_packCmd {f : Fields W} (hf : f.WellFormed DW) (op : BitVec 3) :
    (packCmd DW op f).toNat =
      op.toNat * 2 ^ (2 * W + 3 * DW + 1) + f.ke.toNat * 2 ^ (2 * W + 3 * DW)
        + f.k * 2 ^ (2 * W + 2 * DW) + f.td * 2 ^ (2 * W + DW) + f.id * 2 ^ (2 * W)
        + f.a.toNat * 2 ^ W + f.b.toNat := by
  obtain ⟨hk, htd, hid⟩ := hf
  simp only [packCmd, toNat_append_eq, BitVec.toNat_ofBool, toNat_ofNat_of_lt hk, toNat_ofNat_of_lt htd,
    toNat_ofNat_of_lt hid]
  ring

/-- R56: a command word determines its operation code and, where the counts fit, all its fields. -/
theorem packCmd_injective {op op' : BitVec 3} {f g : Fields W} (hf : f.WellFormed DW)
    (hg : g.WellFormed DW) (h : packCmd DW op f = packCmd DW op' g) : op = op' ∧ f = g := by
  obtain ⟨hk, htd, hid⟩ := hf
  obtain ⟨hk', htd', hid'⟩ := hg
  obtain ⟨h, hb⟩ := append_eq_append h
  obtain ⟨h, ha⟩ := append_eq_append h
  obtain ⟨h, heqid⟩ := append_eq_append h
  obtain ⟨h, heqtd⟩ := append_eq_append h
  obtain ⟨h, heqk⟩ := append_eq_append h
  obtain ⟨hop, hke⟩ := append_eq_append h
  refine ⟨hop, ?_⟩
  cases f
  cases g
  congr
  · exact BitVec.ofBool_eq_iff_eq.mp hke
  · exact eq_of_ofNat_eq hk hk' heqk
  · exact eq_of_ofNat_eq htd htd' heqtd
  · exact eq_of_ofNat_eq hid hid' heqid

/-- The fields of an encoded command are read back, for every width. -/
theorem fieldsOf_packCmd {f : Fields W} (hf : f.WellFormed DW) (op : BitVec 3) :
    fieldsOf W DW (packCmd DW op f) = f :=
  (packCmd_injective (fieldsOf_wellFormed _) hf (packCmd_fieldsOf (packCmd DW op f))).2

/-- Settles O2: the operation code and the fields of the word of a well-formed command are the command's,
and decoding looks at nothing else. -/
theorem decodeInvertsEncode : Obligations.DecodeInvertsEncode := by
  unfold Obligations.DecodeInvertsEncode
  intro i hi
  exact decodeWord_of_op (opOf_packCmd _ _ _) (fieldsOf_packCmd hi i.op)

/-- A word is the word of the command it decodes to. -/
theorem encode_of_decodeWord {w : CmdWord} {i : Instr} (h : decodeWord w = some i) : encode i = w := by
  obtain ⟨hop, hfields⟩ := decodeWord_some h
  rw [encode, hop, hfields, packCmd_fieldsOf]

/-- Settles O3: a decoded command has the code and the fields of its word, and these make up the word. -/
theorem encodeInvertsDecode : Obligations.EncodeInvertsDecode := by
  unfold Obligations.EncodeInvertsDecode
  exact fun w i h => ⟨decodeWord_wellFormed h, encode_of_decodeWord h⟩

/-- Settles O4: the value of a concatenation is the sum of its parts at their places, and the word
determines its parts. -/
theorem commandWordLayout : Obligations.CommandWordLayout := by
  unfold Obligations.CommandWordLayout
  refine ⟨?layout, ?topDigit⟩
  case layout =>
    intro W DW op f hf
    have hlength : cmdBits W DW = 4 + 3 * DW + 2 * W := by
      unfold cmdBits
      omega
    exact ⟨hlength, toNat_packCmd hf op, opOf_packCmd DW op f, fieldsOf_packCmd hf op⟩
  case topDigit =>
    intro i hi
    have hvalue := toNat_packCmd (W := 8) (DW := 8) hi i.op
    obtain ⟨hk, htd, hid⟩ : i.fields.WellFormed 8 := hi
    have ha : i.fields.a.toNat < 2 ^ 8 := i.fields.a.isLt
    have hb : i.fields.b.toNat < 2 ^ 8 := i.fields.b.isLt
    rw [encode, hvalue]
    omega

/-! The operation code in the word (R57, R58). -/

theorem op_toNat_lt : ∀ i : Instr, i.op.toNat < 6
  | .mkscheme f => (Laws.OperationCode.mkscheme f).1
  | .decode f => (Laws.OperationCode.decode f).1
  | .add f => (Laws.OperationCode.add f).1
  | .sub f => (Laws.OperationCode.sub f).1
  | .mul f => (Laws.OperationCode.mul f).1
  | .div f => (Laws.OperationCode.div f).1

/-- R58: a reserved operation code selects no operation. -/
theorem decodeWord_reserved {w : CmdWord} (h : 6 ≤ (opOf Config.W Config.DW w).toNat) :
    decodeWord w = none := by
  rw [Option.eq_none_iff_forall_ne_some]
  intro i hi
  have hlt := op_toNat_lt i
  rw [(decodeWord_some hi).1] at hlt
  omega

/-- A mask of the top `n` bits leaves these bits in their place. -/
theorem and_topMask {n m : Nat} (w : BitVec (n + m)) :
    w &&& (BitVec.allOnes n).setWidth (n + m) <<< m = (w.extractLsb' m n).setWidth (n + m) <<< m := by
  apply BitVec.eq_of_getLsbD_eq
  intro j hj
  by_cases hlow : j < m
  · simp [hlow]
  · have hplace : m + (j - m) = j := by omega
    have hn : j - m < n := by omega
    simp [hlow, hj, hn, hplace]

/-- R57: the mask leaves the operation code in its place. -/
theorem and_opMask (w : CmdWord) :
    w &&& ((0xE0000000000 : Nat) : CmdWord) = (opOf Config.W Config.DW w).setWidth 44 <<< 41 := by
  have hmask : ((0xE0000000000 : Nat) : CmdWord) = (BitVec.allOnes 3).setWidth (3 + 41) <<< 41 := by decide
  rw [hmask]
  exact and_topMask (n := 3) (m := 41) w

/-- Codes in the place of the operation code agree only when they are the same. -/
theorem opMatch_injective {c c' : BitVec 3} (h : c.setWidth 44 <<< 41 = c'.setWidth 44 <<< 41) : c = c' := by
  revert c c'
  decide

/-- Settles O5: the masked word is the operation code in its place, and decoding reads the operation from
it. -/
theorem operationCodes : Obligations.OperationCodes := by
  unfold Obligations.OperationCodes
  refine ⟨fun _ => ⟨rfl, rfl, rfl, rfl, rfl, rfl⟩, ?decodedMatches, ?matchDecodes⟩
  case decodedMatches =>
    intro w i h
    rw [and_opMask, (decodeWord_some h).1]
  case matchDecodes =>
    intro w i h
    rw [and_opMask] at h
    have hop := opMatch_injective h
    cases hdec : decodeWord w with
    | some j => exact ⟨j, rfl, (decodeWord_some hdec).1.trans hop⟩
    | none =>
      have hlt := op_toNat_lt i
      have hreserved := decodeWord_none hdec
      rw [hop] at hreserved
      omega

end Sys2Proof

namespace Sys2Proof.Machine

variable {W DW : Nat}

/-- R62: the value of the response word. -/
theorem toNat_word {r : Response W} (hq : r.q < 2 ^ DW) :
    (r.word DW).toNat = r.status.code.toNat * 2 ^ (W + DW + 1) + r.ovf.toNat * 2 ^ (W + DW)
      + r.q * 2 ^ W + r.res.toNat := by
  simp only [Response.word, toNat_append_eq, BitVec.toNat_ofBool, toNat_ofNat_of_lt hq]
  ring

/-- R62: a response word is its fields, concatenated in their order. -/
theorem append_fields_of_word (v : BitVec (rspBits W DW)) :
    v.extractLsb' (W + DW + 1) 3 ++ BitVec.ofBool (v.getLsbD (W + DW)) ++ v.extractLsb' W DW
      ++ v.extractLsb' 0 W = v := by
  rw [ofBool_getLsbD, BitVec.extractLsb'_append_extractLsb'_eq_extractLsb',
    BitVec.extractLsb'_append_extractLsb'_eq_extractLsb', BitVec.extractLsb'_append_extractLsb'_eq_extractLsb',
    BitVec.extractLsb'_eq_self]
  all_goals omega

/-- A response whose `q` fits is read back from its word. -/
theorem responseOfWord_word {r : Response W} (hq : r.q < 2 ^ DW) :
    responseOfWord W DW (r.word DW) = some r := by
  obtain ⟨h, hres⟩ := append_eq_append (append_fields_of_word (r.word DW))
  obtain ⟨h, hqbits⟩ := append_eq_append h
  obtain ⟨hstatus, hovf⟩ := append_eq_append h
  rw [responseOfWord, hstatus, statusOfCode_code, BitVec.ofBool_eq_iff_eq.mp hovf, hqbits, hres, toNat_ofNat_of_lt hq]
  rfl

theorem statusOfCode_eq_none_iff (c : BitVec 3) : statusOfCode c = none ↔ 5 ≤ c.toNat := by
  revert c
  decide

/-- U15: a word is no response exactly when its status code is none of the five. -/
theorem responseOfWord_eq_none_iff (v : BitVec (rspBits W DW)) :
    responseOfWord W DW v = none ↔ 5 ≤ v.toNat / 2 ^ (W + DW + 1) := by
  have hlt : v.toNat / 2 ^ (W + DW + 1) < 2 ^ 3 := by
    rw [Nat.div_lt_iff_lt_mul (Nat.two_pow_pos _), ← pow_add]
    exact v.isLt.trans_eq (congrArg (2 ^ ·) (by unfold rspBits; omega))
  rw [responseOfWord, Option.map_eq_none_iff, statusOfCode_eq_none_iff, BitVec.extractLsb'_toNat,
    Nat.shiftRight_eq_div_pow, Nat.mod_eq_of_lt hlt]

/-- R62: an OK response carries the number of fraction digits of its command's Scheme. -/
theorem transact_q_of_ok {op : BitVec 3} {f : Fields W} (h : (transact op f).status = .ok) :
    (transact op f).q = f.td - f.id := by
  rcases transact_cases op f with ⟨e, he, hr⟩ | ⟨-, -, x, hr⟩ | ⟨-, -, hr⟩
  · rw [hr] at h
    exact absurd h he
  · rw [hr]
    rfl
  · rw [hr]
    rfl

/-- Settles O6: the value of a concatenation is the sum of its parts at their places, and the word
determines its parts. -/
theorem responseWordLayout : Obligations.ResponseWordLayout := by
  unfold Obligations.ResponseWordLayout
  refine ⟨?topDigit, fun W op f => transact_q_of_ok, fun W DW => ⟨?length, ?readBack, ?noStatus⟩⟩
  case topDigit =>
    intro r hq
    have hvalue := toNat_word (W := 8) (DW := 8) hq
    have hres : r.res.toNat < 2 ^ 8 := r.res.isLt
    have hq8 : r.q < 2 ^ 8 := hq
    rw [hvalue]
    omega
  case length =>
    unfold rspBits
    omega
  case readBack => exact fun r hq => ⟨toNat_word hq, responseOfWord_word hq⟩
  case noStatus => exact responseOfWord_eq_none_iff

/-! The total function on command words and the answers it gives (R58, R63, R66). -/

/-- Settles O8: a step drives the answer to its word; with a valid Scheme each of the six codes selects its
own operation. -/
theorem stepDrivesTheTransactionResponse : Obligations.StepDrivesTheTransactionResponse := by
  unfold Obligations.StepDrivesTheTransactionResponse
  refine ⟨step_eq_finish, fun W op f => ⟨fun h => transact_reserved h f, transact_of_invalid, fun _ => ?_⟩⟩
  refine ⟨?_, ?_, ?_, ?_, ?_, ?_⟩
  all_goals
    rintro rfl
    rfl

/-- Settles O9: a reserved code is decoded to no command, and every other word to the command of its code
and fields. -/
theorem reservedCodesAnswerIllegalOp : Obligations.ReservedCodesAnswerIllegalOp := by
  unfold Obligations.ReservedCodesAnswerIllegalOp
  refine fun s => ⟨fun h => ?reserved, fun h => ?operation⟩
  case reserved =>
    have hnone := decodeWord_reserved h
    exact ⟨hnone, step_of_decode_none hnone⟩
  case operation =>
    cases hdec : decodeWord s.cmd with
    | some i => exact ⟨i, rfl, decodeWord_some hdec⟩
    | none =>
      have hreserved := decodeWord_none hdec
      omega

/-- Settles O13: every response is legal, and a count of at most `W` fits its field. -/
theorem everyAnswerIsLegal : Obligations.EveryAnswerIsLegal := by
  unfold Obligations.EveryAnswerIsLegal
  intro W DW op f hlegal
  have hanswer := transact_legal op f
  exact ⟨hanswer, hanswer.2.trans_lt hlegal.2, transact_q_of_ok⟩

end Sys2Proof.Machine
end

section
/-! The fields and the container bits an operation does not read (30_encoding.md R59). -/

namespace Sys2Proof.Machine

@[simp] theorem zeroIgnored_op (i : Instr) : (zeroIgnored i).op = i.op := by
  cases i <;> rfl

/-- Without `ke`, DIV does not read `k`. -/
theorem divRsp_of_ke_false {W : Nat} {f : Fields W} (h : f.ke = false) :
    divRsp { f with k := 0 } = divRsp f := by
  have hpre : kEff { f with k := 0 } = kEff f :=
    (kEff_of_ke_false (f := { f with k := 0 }) h).trans (kEff_of_ke_false h).symm
  rw [divRsp, hpre]
  rfl

/-- R59: setting the ignored fields to zero changes no response. -/
theorem exec_zeroIgnored (i : Instr) (s : State) : exec (zeroIgnored i) s = exec i s := by
  cases i with
  | div f =>
    cases hke : f.ke with
    | true =>
      have hkept : zeroIgnored (.div f) = .div f := congrArg Instr.div (if_pos hke)
      rw [hkept]
    | false =>
      have hzero : zeroIgnored (.div f) = .div { f with k := 0 } :=
        congrArg Instr.div (if_neg (Bool.eq_false_iff.mp hke))
      rw [hzero]
      exact congrArg (finish · s) (divRsp_of_ke_false hke)
  | _ => rfl

/-- Commands of one operation that agree once the ignored fields and the container bits at or above `td`
are set to zero have the same meaning. -/
theorem exec_eq_of_read_eq {i j : Instr} (hop : i.op = j.op)
    (h : maskContainers (zeroIgnored i).fields = maskContainers (zeroIgnored j).fields) (s : State) :
    exec i s = exec j s := by
  rw [← exec_zeroIgnored i, ← exec_zeroIgnored j, exec_eq_finish, exec_eq_finish, zeroIgnored_op,
    zeroIgnored_op, ← transact_maskContainers, h, hop, transact_maskContainers]

/-- Settles O18: commands that agree in what their operation reads are the same once the rest is set to
zero. -/
theorem ignoredFieldsMakeNoDifference : Obligations.IgnoredFieldsMakeNoDifference := by
  unfold Obligations.IgnoredFieldsMakeNoDifference
  refine ⟨?read, ?reserved, exec_zeroIgnored⟩
  case read =>
    intro f g s htd hid
    refine ⟨?mkscheme, fun ha => ⟨?decode, fun hb => ⟨?add, ?sub, ?mul, fun hke hk => ?div⟩⟩⟩
    case div =>
      rw [htd] at ha hb
      refine exec_eq_of_read_eq (by rfl) ?_ s
      cases hg : g.ke with
      | true => simp [zeroIgnored, Instr.fields, maskContainers, htd, hid, ha, hb, hke, hg, hk (hke.trans hg)]
      | false => simp [zeroIgnored, Instr.fields, maskContainers, htd, hid, ha, hb, hke, hg]
    case mkscheme =>
      refine exec_eq_of_read_eq (by rfl) ?_ s
      simp [zeroIgnored, Instr.fields, maskContainers, htd, hid]
    case decode =>
      rw [htd] at ha
      refine exec_eq_of_read_eq (by rfl) ?_ s
      simp [zeroIgnored, Instr.fields, maskContainers, htd, hid, ha]
    all_goals
      rw [htd] at ha hb
      refine exec_eq_of_read_eq (by rfl) ?_ s
      simp [zeroIgnored, Instr.fields, maskContainers, htd, hid, ha, hb]
  case reserved =>
    intro s t hs ht
    exact (transact_reserved hs _).trans (transact_reserved ht _).symm

end Sys2Proof.Machine
end

section
/-! What a line of a script does to what the caller keeps (30_encoding.md R68; 70_reset_and_hazards.md R188,
R189). -/

namespace Sys2Proof.Machine

theorem runScript_send (n : Nat) (op : BitVec 3) (td id a b : Operand) (k : Option Operand)
    (rest : List ScriptLine) (h : Kept) :
    runScript (.send n op td id a b k :: rest) h
      = (commandOf h op td id a b k).bind fun w => runScript rest ((n, answerTo w) :: h) := by
  rw [runScript]
  cases commandOf h op td id a b k <;> rfl

theorem runScript_stopIf (c : Condition) (rest : List ScriptLine) (h : Kept) :
    runScript (.stopIf c :: rest) h
      = (c.holds h).bind fun stop => if stop then some h else runScript rest h := by
  rw [runScript]
  rcases c.holds h with _ | _ | _ <;> rfl

/-! What the caller keeps under a name. -/

theorem find_eq_find? (h : Kept) (n : Nat) :
    Kept.find h n = (h.find? fun p => p.1 = n).map Prod.snd := by
  induction h with
  | nil => rfl
  | cons p ps ih => by_cases hp : p.1 = n <;> simp [Kept.find, hp, ih]

/-- The response found under a name is the latest kept under it. -/
theorem find_eq_some_iff {h : Kept} {n : Nat} {r : Response Config.W} :
    Kept.find h n = some r ↔ ∃ newer older, h = newer ++ (n, r) :: older ∧ ∀ p ∈ newer, p.1 ≠ n := by
  rw [find_eq_find?, Option.map_eq_some_iff]
  constructor
  · rintro ⟨⟨m, _⟩, hfind, rfl⟩
    obtain ⟨hm, newer, older, hsplit, hnewer⟩ := List.find?_eq_some_iff_append.mp hfind
    obtain rfl : m = n := of_decide_eq_true hm
    exact ⟨newer, older, hsplit, fun p hp => by simpa using hnewer p hp⟩
  · rintro ⟨newer, older, hsplit, hnewer⟩
    refine ⟨(n, r), List.find?_eq_some_iff_append.mpr ⟨decide_eq_true rfl, newer, older, hsplit, ?_⟩, rfl⟩
    exact fun p hp => by simpa using hnewer p hp

theorem find_eq_none_iff {h : Kept} {n : Nat} : Kept.find h n = none ↔ ∀ p ∈ h, p.1 ≠ n := by
  simp [find_eq_find?]

/-! The command of a sending line is made from the values of its operands. -/

theorem value_res_of_find {h : Kept} {n : Nat} {r : Response Config.W} (hfind : Kept.find h n = some r) :
    (Operand.res n).value h = (Operand.lit r.res.toNat).value h := by
  simp only [Operand.value, hfind, Option.map_some]

theorem value_res_of_find_none {h : Kept} {n : Nat} (hfind : Kept.find h n = none) :
    (Operand.res n).value h = none := by
  simp only [Operand.value, hfind, Option.map_none]

section
variable {h : Kept} {td td' id id' a a' b b' : Operand} {k k' : Option Operand}

theorem commandOf_congr (op : BitVec 3) (htd : td.value h = td'.value h) (hid : id.value h = id'.value h)
    (ha : a.value h = a'.value h) (hb : b.value h = b'.value h)
    (hk : k.map (Operand.value h) = k'.map (Operand.value h)) :
    commandOf h op td id a b k = commandOf h op td' id' a' b' k' := by
  rw [commandOf, commandOf, htd, hid, ha, hb]
  cases k with
  | none =>
    cases k' with
    | none => rfl
    | some x' => cases hk
  | some x =>
    cases k' with
    | none => cases hk
    | some x' =>
      have hx : x.value h = x'.value h := Option.some.inj hk
      simp only [hx, Option.isSome_some]

/-- Lines whose operands have the same values run alike. -/
theorem runScript_send_congr (n : Nat) (op : BitVec 3) (rest : List ScriptLine)
    (htd : td.value h = td'.value h) (hid : id.value h = id'.value h) (ha : a.value h = a'.value h)
    (hb : b.value h = b'.value h) (hk : k.map (Operand.value h) = k'.map (Operand.value h)) :
    runScript (.send n op td id a b k :: rest) h = runScript (.send n op td' id' a' b' k' :: rest) h := by
  rw [runScript_send, runScript_send, commandOf_congr op htd hid ha hb hk]

/-- R188: a command with an operand that has no value cannot be built. -/
theorem commandOf_eq_none (op : BitVec 3) (hnone : td.value h = none ∨ id.value h = none ∨ a.value h = none
      ∨ b.value h = none ∨ k.map (Operand.value h) = some none) :
    commandOf h op td id a b k = none := by
  rw [commandOf]
  rcases hnone with hv | hv | hv | hv | hv
  case inr.inr.inr.inr =>
    obtain ⟨x, rfl, hx⟩ := Option.map_eq_some_iff.mp hv
    simp [hx]
  all_goals simp [hv]

end

/-- Settles O56: the command of a line is made from its operands' values, and `%n.res` has the value of the
result found under `n`. -/
theorem scriptOperandsCopyKeptResults : Obligations.ScriptOperandsCopyKeptResults := by
  unfold Obligations.ScriptOperandsCopyKeptResults
  refine ⟨fun h n r => find_eq_some_iff, fun h n => find_eq_none_iff, ?copied, ?missing⟩
  case copied =>
    intro h n m r op w x y z k rest hfind
    have hv := value_res_of_find hfind
    exact ⟨runScript_send_congr m op rest hv rfl rfl rfl rfl, runScript_send_congr m op rest rfl hv rfl rfl rfl,
      runScript_send_congr m op rest rfl rfl hv rfl rfl, runScript_send_congr m op rest rfl rfl rfl hv rfl,
      runScript_send_congr m op rest rfl rfl rfl rfl (congrArg some hv)⟩
  case missing =>
    intro h n m op w x y z k rest hfind hplace
    have hv := value_res_of_find_none hfind
    have hnone : commandOf h op w x y z k = none := by
      apply commandOf_eq_none
      rcases hplace with rfl | rfl | rfl | rfl | rfl
      · exact .inl hv
      · exact .inr (.inl hv)
      · exact .inr (.inr (.inl hv))
      · exact .inr (.inr (.inr (.inl hv)))
      · exact .inr (.inr (.inr (.inr (congrArg some hv))))
    rw [runScript_send, hnone]
    rfl

section
variable {h : Kept} {n : Nat} {r : Response Config.W} (hfind : Kept.find h n = some r)
include hfind

theorem runScript_isEq (x : RspField) (v : Nat) (rest : List ScriptLine) :
    runScript (.stopIf (.isEq n x v) :: rest) h = if x.value r = v then some h else runScript rest h := by
  simp [runScript_stopIf, Condition.holds, hfind]

theorem runScript_isNe (x : RspField) (v : Nat) (rest : List ScriptLine) :
    runScript (.stopIf (.isNe n x v) :: rest) h = if x.value r = v then runScript rest h else some h := by
  by_cases hx : x.value r = v <;> simp [runScript_stopIf, Condition.holds, hfind, hx]

end

/-- Settles O57: a condition compares the field of the response found under its name, and each field is a
range of bits of the response word. -/
theorem scriptStopLines : Obligations.ScriptStopLines := by
  unfold Obligations.ScriptStopLines
  refine ⟨?arrived, ?missing, ?fields⟩
  case arrived =>
    intro h n r x v rest hfind
    rw [runScript_isEq hfind, runScript_isNe hfind]
    exact ⟨fun hx => ⟨if_pos hx, if_pos hx⟩, fun hx => ⟨if_neg hx, if_neg hx⟩⟩
  case missing =>
    intro h n x v rest hfind
    simp [runScript_stopIf, Condition.holds, hfind]
  case fields =>
    intro r hq
    have hvalue := toNat_word (W := 8) (DW := 8) hq
    have hq8 : r.q < 2 ^ 8 := hq
    have hres : r.res.toNat < 2 ^ 8 := r.res.isLt
    have hovf := r.ovf.toNat_lt
    rw [hvalue]
    simp only [RspField.value]
    omega

/-! What a whole script keeps. -/

/-- The line that sends a command with numbers for operands. -/
abbrev sendLits (c : Nat × BitVec 3 × Fields Config.W) : ScriptLine :=
  .send c.1 c.2.1 (.lit c.2.2.td) (.lit c.2.2.id) (.lit c.2.2.a.toNat) (.lit c.2.2.b.toNat)
    (if c.2.2.ke = true then some (.lit c.2.2.k) else none)

/-- The word that line sends. -/
abbrev wordOfLits (c : Nat × BitVec 3 × Fields Config.W) : CmdWord :=
  packCmd Config.DW c.2.1 { c.2.2 with k := if c.2.2.ke = true then c.2.2.k else 0 }

theorem runScript_sendLits_cons (c : Nat × BitVec 3 × Fields Config.W) (rest : List ScriptLine) (h : Kept) :
    runScript (sendLits c :: rest) h = runScript rest ((c.1, answerTo (wordOfLits c)) :: h) := by
  obtain ⟨n, op, f⟩ := c
  rw [sendLits, runScript_send]
  cases hke : f.ke <;> simp [commandOf, Operand.value, wordOfLits, hke]

theorem runScript_sendLits (cs : List (Nat × BitVec 3 × Fields Config.W)) (h : Kept) :
    runScript (cs.map sendLits) h
      = some (((cs.map Prod.fst).zip ((cs.map wordOfLits).map answerTo)).reverse ++ h) := by
  induction cs generalizing h with
  | nil => rfl
  | cons c cs ih => simp [runScript_sendLits_cons, ih]

/-- A script that runs to an end adds the answers to some command words under the names of its first
sending lines, of all of them when it has no stop line. -/
theorem runScript_adds_answers {ls : List ScriptLine} {h h' : Kept} (hrun : runScript ls h = some h') :
    ∃ (ns : List Nat) (ws : List CmdWord), ns.length = ws.length ∧ ns <+: ls.filterMap ScriptLine.sends ∧
      ((∀ l ∈ ls, l.sends.isSome = true) → ns = ls.filterMap ScriptLine.sends) ∧
      h' = (ns.zip (ws.map answerTo)).reverse ++ h := by
  induction ls generalizing h with
  | nil =>
    cases hrun
    exact ⟨[], [], rfl, List.nil_prefix, fun _ => rfl, rfl⟩
  | cons l ls ih =>
    cases l with
    | send n op td id a b k =>
      rw [runScript_send] at hrun
      obtain ⟨w, -, hrest⟩ := Option.bind_eq_some_iff.mp hrun
      obtain ⟨ns, ws, hlen, hprefix, hall, rfl⟩ := ih hrest
      refine ⟨n :: ns, w :: ws, congrArg (· + 1) hlen, List.cons_prefix_cons.mpr ⟨rfl, hprefix⟩,
        fun hsends => ?_, by simp⟩
      exact congrArg (n :: ·) (hall fun l hl => hsends l (.tail _ hl))
    | stopIf c =>
      rw [runScript_stopIf] at hrun
      obtain ⟨stop, -, hrest⟩ := Option.bind_eq_some_iff.mp hrun
      cases stop with
      | true =>
        cases hrest
        exact ⟨[], [], rfl, List.nil_prefix, fun hsends => (nomatch hsends _ (.head _)), rfl⟩
      | false =>
        obtain ⟨ns, ws, hlen, hprefix, hall, hkept⟩ := ih hrest
        exact ⟨ns, ws, hlen, hprefix, fun hsends => hall fun l hl => hsends l (.tail _ hl), hkept⟩

theorem runScript_append {ls : List ScriptLine} (hsends : ∀ l ∈ ls, l.sends.isSome = true)
    (rest : List ScriptLine) (h : Kept) :
    runScript (ls ++ rest) h = (runScript ls h).bind (runScript rest) := by
  induction ls generalizing h with
  | nil => rfl
  | cons l ls ih =>
    cases l with
    | send n op td id a b k =>
      have hrest := ih fun l hl => hsends l (.tail _ hl)
      simp only [List.cons_append, runScript_send, hrest, Option.bind_assoc]
    | stopIf c => exact nomatch hsends _ (.head _)

/-- Settles O55: the machine answers each word it is served as the script's caller is answered. -/
theorem scriptsKeepTheMachinesResponses : Obligations.ScriptsKeepTheMachinesResponses := by
  unfold Obligations.ScriptsKeepTheMachinesResponses
  simp only [serve_fst]
  refine ⟨fun cs _ => ?_, fun ls h h' _ => runScript_adds_answers, fun ls rest h hsends =>
    runScript_append hsends rest h⟩
  rw [runScript_sendLits cs [], List.append_nil]

end Sys2Proof.Machine
end

section
/-! What a line of the textual form is read as (30_encoding.md R67). -/

namespace Sys2Proof.Machine

theorem assemble_eq_some {line : List Char} {i : Instr} (h : assemble line = some i) :
    ∃ m ls mk f, operationOf m ls.length = some mk ∧ assembleFields ls = some f ∧ mk f = i := by
  obtain ⟨ls, -, h⟩ := Option.bind_eq_some_iff.mp h
  obtain ⟨mk, hop, h⟩ := Option.bind_eq_some_iff.mp h
  obtain ⟨f, hf, h⟩ := Option.bind_eq_some_iff.mp h
  exact ⟨_, ls, mk, f, hop, hf, Option.some.inj h⟩

/-- R67: the mnemonics, each with its numbers of operands. -/
theorem operationOf_eq_some_iff {m : List Char} {n : Nat} {mk : Fields Config.W → Instr} :
    operationOf m n = some mk ↔
      (m = "MKSCHEME".toList ∧ n = 2 ∧ mk = Instr.mkscheme) ∨ (m = "DECODE".toList ∧ n = 3 ∧ mk = Instr.decode) ∨
      (m = "ADD".toList ∧ n = 4 ∧ mk = Instr.add) ∨ (m = "SUB".toList ∧ n = 4 ∧ mk = Instr.sub) ∨
      (m = "MUL".toList ∧ n = 4 ∧ mk = Instr.mul) ∨
      (m = "DIV".toList ∧ (n = 4 ∨ n = 5) ∧ mk = Instr.div) := by
  constructor
  · intro h
    unfold operationOf at h
    split_ifs at h with h1 h2 h3 h4 h5 h6
    all_goals cases h
    · exact .inl ⟨h1.1, h1.2, rfl⟩
    · exact .inr (.inl ⟨h2.1, h2.2, rfl⟩)
    · exact .inr (.inr (.inl ⟨h3.1, h3.2, rfl⟩))
    · exact .inr (.inr (.inr (.inl ⟨h4.1, h4.2, rfl⟩)))
    · exact .inr (.inr (.inr (.inr (.inl ⟨h5.1, h5.2, rfl⟩))))
    · exact .inr (.inr (.inr (.inr (.inr ⟨h6.1, h6.2, rfl⟩))))
  · rintro (⟨rfl, rfl, rfl⟩ | ⟨rfl, rfl, rfl⟩ | ⟨rfl, rfl, rfl⟩ | ⟨rfl, rfl, rfl⟩ | ⟨rfl, rfl, rfl⟩ |
      ⟨rfl, rfl | rfl, rfl⟩)
    all_goals rfl

theorem count_eq_some_iff {l : Literal} {v : Nat} :
    l.count = some v ↔ (l.point = none ∧ l.value < 2 ^ Config.DW) ∧ l.value = v := by
  rw [Literal.count, Option.ite_none_right_eq_some, Option.some_inj]

theorem count_lt {l : Literal} {v : Nat} (h : l.count = some v) : v < 2 ^ Config.DW := by
  obtain ⟨⟨-, hlt⟩, rfl⟩ := count_eq_some_iff.mp h
  exact hlt

theorem count_of_lt {v : Nat} (h : v < 2 ^ Config.DW) : (Literal.mk v none).count = some v :=
  if_pos ⟨rfl, h⟩

theorem container_of_lt {td id v : Nat} {p : Option Nat} (hp : p = none ∨ p = some (td - id))
    (h : v < 2 ^ Config.W) : (Literal.mk v p).container td id = some (BitVec.ofNat Config.W v) :=
  if_pos ⟨hp, h⟩

section
variable {td id k : Nat} {a b : BitVec Config.W} {ltd lid la lb lk : Literal} (htd : ltd.count = some td)
  (hid : lid.count = some id)
include htd hid

theorem assembleFields_scheme : assembleFields [ltd, lid] = some ⟨false, 0, td, id, 0, 0⟩ := by
  simp [assembleFields, htd, hid]

theorem assembleFields_one (ha : la.container td id = some a) :
    assembleFields [ltd, lid, la] = some ⟨false, 0, td, id, a, 0⟩ := by
  simp [assembleFields, htd, hid, ha]

theorem assembleFields_two (ha : la.container td id = some a) (hb : lb.container td id = some b) :
    assembleFields [ltd, lid, la, lb] = some ⟨false, 0, td, id, a, b⟩ := by
  simp [assembleFields, htd, hid, ha, hb]

theorem assembleFields_precision (ha : la.container td id = some a) (hb : lb.container td id = some b)
    (hk : lk.count = some k) : assembleFields [ltd, lid, la, lb, lk] = some ⟨true, k, td, id, a, b⟩ := by
  simp [assembleFields, htd, hid, ha, hb, hk]

end

/-- The fields that a number of operands gives: what is not written is zero. -/
inductive OperandFields : Nat → Fields Config.W → Prop
  | scheme (td id : Nat) : OperandFields 2 ⟨false, 0, td, id, 0, 0⟩
  | one (td id : Nat) (a : BitVec Config.W) : OperandFields 3 ⟨false, 0, td, id, a, 0⟩
  | two (td id : Nat) (a b : BitVec Config.W) : OperandFields 4 ⟨false, 0, td, id, a, b⟩
  | precision (td id : Nat) (a b : BitVec Config.W) (k : Nat) : OperandFields 5 ⟨true, k, td, id, a, b⟩

/-- Operands that are read give the fields of their number, and counts that fit. -/
theorem assembleFields_some {ls : List Literal} {f : Fields Config.W} (h : assembleFields ls = some f) :
    f.WellFormed Config.DW ∧ OperandFields ls.length f := by
  have hzero : 0 < 2 ^ Config.DW := by decide
  unfold assembleFields at h
  split at h
  case h_5 => cases h
  all_goals
    obtain ⟨td, htd, h⟩ := Option.bind_eq_some_iff.mp h
    obtain ⟨id, hid, h⟩ := Option.bind_eq_some_iff.mp h
    replace htd := count_lt htd
    replace hid := count_lt hid
  case h_1 =>
    cases h
    exact ⟨⟨hzero, htd, hid⟩, .scheme td id⟩
  all_goals obtain ⟨a, -, h⟩ := Option.bind_eq_some_iff.mp h
  case h_2 =>
    cases h
    exact ⟨⟨hzero, htd, hid⟩, .one td id a⟩
  all_goals obtain ⟨b, -, h⟩ := Option.bind_eq_some_iff.mp h
  case h_3 =>
    cases h
    exact ⟨⟨hzero, htd, hid⟩, .two td id a b⟩
  case h_4 =>
    obtain ⟨k, hk, h⟩ := Option.bind_eq_some_iff.mp h
    cases h
    exact ⟨⟨count_lt hk, htd, hid⟩, .precision td id a b k⟩

theorem fields_of_operationOf {m : List Char} {n : Nat} {mk : Fields Config.W → Instr}
    (hop : operationOf m n = some mk) (f : Fields Config.W) : (mk f).fields = f := by
  rcases operationOf_eq_some_iff.mp hop with
    ⟨-, -, rfl⟩ | ⟨-, -, rfl⟩ | ⟨-, -, rfl⟩ | ⟨-, -, rfl⟩ | ⟨-, -, rfl⟩ | ⟨-, -, rfl⟩ <;> rfl

/-- R59, R67: a mnemonic takes as many operands as its operation reads fields, so the fields it ignores
are not written. -/
theorem zeroIgnored_of_operationOf {m : List Char} {n : Nat} {mk : Fields Config.W → Instr}
    (hop : operationOf m n = some mk) {f : Fields Config.W} (hf : OperandFields n f) :
    zeroIgnored (mk f) = mk f ∧ (f.ke = true → (mk f).op = 5) := by
  rcases operationOf_eq_some_iff.mp hop with
    ⟨-, rfl, rfl⟩ | ⟨-, rfl, rfl⟩ | ⟨-, rfl, rfl⟩ | ⟨-, rfl, rfl⟩ | ⟨-, rfl, rfl⟩ | ⟨-, rfl | rfl, rfl⟩
  case inr.inr.inr.inr.inr.inr =>
    cases hf
    exact ⟨rfl, fun _ => rfl⟩
  all_goals
    cases hf
    exact ⟨rfl, nofun⟩

/-- Settles O54: a command that is read is its mnemonic's operation on the fields its operands give. -/
theorem assemblerZeroesIgnoredFields : Obligations.AssemblerZeroesIgnoredFields := by
  unfold Obligations.AssemblerZeroesIgnoredFields
  refine ⟨?read, ?order, fun td id v p hv => ⟨count_of_lt hv, fun hp => container_of_lt hp hv⟩,
    fun m n mk => operationOf_eq_some_iff⟩
  case read =>
    intro line i h
    obtain ⟨m, ls, mk, f, hop, hf, rfl⟩ := assemble_eq_some h
    obtain ⟨hwf, hoperands⟩ := assembleFields_some hf
    rw [Instr.WellFormed, fields_of_operationOf hop]
    exact ⟨hwf, zeroIgnored_of_operationOf hop hoperands⟩
  case order =>
    intro td id k a b ltd lid la lb lk htd hid ha hb hk
    exact ⟨assembleFields_scheme htd hid, assembleFields_one htd hid ha, assembleFields_two htd hid ha hb,
      assembleFields_precision htd hid ha hb hk⟩

end Sys2Proof.Machine
end

section
/-! A line that is read as a given command (30_encoding.md R67): its mnemonic, a blank and hexadecimal
numbers between commas. -/

namespace Sys2Proof.Machine

/-! A number below 256 as two hexadecimal digits. -/

/-- A number as it is written after `0x`, with two digits. -/
def numeral (n : Nat) : List Char := ['0', 'x', Nat.digitChar (n / 16), Nat.digitChar (n % 16)]

/-- The characters of a numeral are none of those that end an operand, a line or a word. -/
abbrev Plain (c : Char) : Prop := c ≠ ',' ∧ c ≠ ';' ∧ isBlank c = false

theorem digitChar_plain : ∀ v < 16, Plain (Nat.digitChar v) := by decide

theorem digitVal_digitChar : ∀ v < 16, digitVal 16 (Nat.digitChar v) = some v := by decide

section
variable {n : Nat} (h : n < 256)
include h

theorem numeral_plain : ∀ c ∈ numeral n, Plain c := by
  have hhigh := digitChar_plain (n / 16) (by omega)
  have hlow := digitChar_plain (n % 16) (by omega)
  simp only [numeral, List.forall_mem_cons]
  exact ⟨by decide, by decide, hhigh, hlow, nofun⟩

theorem literal_numeral : literal (numeral n) = some ⟨n, none⟩ := by
  have hhigh := digitVal_digitChar (n / 16) (by omega)
  have hlow := digitVal_digitChar (n % 16) (by omega)
  have hvalue : (0 * 16 + n / 16) * 16 + n % 16 = n := by omega
  have hdigits : digits 16 [Nat.digitChar (n / 16), Nat.digitChar (n % 16)] = some n := by
    rw [digits, digitsFrom, hhigh, Option.bind_some, digitsFrom, hlow, Option.bind_some, digitsFrom, hvalue]
  rw [numeral, literal, hdigits]
  rfl

end

/-! Cutting a text into its words and its pieces. -/

theorem pieces_of_no_comma {p : List Char} (hp : ∀ c ∈ p, c ≠ ',') : pieces p = [p] := by
  induction p with
  | nil => rfl
  | cons c cs ih =>
    obtain ⟨hc, hcs⟩ := List.forall_mem_cons.mp hp
    rw [pieces, if_neg hc, ih hcs]

theorem pieces_append_comma {p : List Char} (hp : ∀ c ∈ p, c ≠ ',') (cs : List Char) :
    pieces (p ++ ',' :: cs) = p :: pieces cs := by
  induction p with
  | nil => rfl
  | cons d ds ih =>
    obtain ⟨hd, hds⟩ := List.forall_mem_cons.mp hp
    rw [List.cons_append, pieces, if_neg hd, ih hds]

theorem dropWhile_isBlank_eq_self {cs : List Char} (hfirst : ∀ c ∈ cs.head?, isBlank c = false) :
    cs.dropWhile isBlank = cs := by
  cases cs with
  | nil => rfl
  | cons c cs => exact List.dropWhile_cons_of_neg (Bool.eq_false_iff.mp (hfirst c rfl))

theorem trim_eq_self {cs : List Char} (hfirst : ∀ c ∈ cs.head?, isBlank c = false)
    (hlast : ∀ c ∈ cs.getLast?, isBlank c = false) : trim cs = cs := by
  rw [trim, dropWhile_isBlank_eq_self hfirst, dropWhile_isBlank_eq_self (by rwa [List.head?_reverse]),
    List.reverse_reverse]

/-- A mnemonic, a blank and operands are read as they stand. -/
theorem assemble_line {m t : List Char} (hm : ∀ c ∈ m, c ≠ ';' ∧ isBlank c = false) (hm0 : m ≠ [])
    (ht : ∀ c ∈ t, c ≠ ';' ∧ isBlank c = false) (ht0 : t ≠ []) :
    assemble (m ++ ' ' :: t) = (literals (pieces (' ' :: t))).bind fun ls =>
      (operationOf m ls.length).bind fun mk => (assembleFields ls).map mk := by
  have hchars : ∀ c ∈ m ++ ' ' :: t, c ≠ ';' := List.forall_mem_append.mpr
    ⟨fun c hc => (hm c hc).1, List.forall_mem_cons.mpr ⟨by decide, fun c hc => (ht c hc).1⟩⟩
  have hcomment : (m ++ ' ' :: t).takeWhile (· ≠ ';') = m ++ ' ' :: t :=
    List.takeWhile_eq_self_iff.mpr fun c hc => decide_eq_true (hchars c hc)
  have htrim : trim (m ++ ' ' :: t) = m ++ ' ' :: t := by
    apply trim_eq_self
    · rw [List.head?_append_of_ne_nil _ hm0]
      exact fun c hc => (hm c (List.mem_of_mem_head? hc)).2
    · rw [← List.singleton_append, ← List.append_assoc, List.getLast?_append_of_ne_nil _ ht0]
      exact fun c hc => (ht c (List.mem_of_mem_getLast? hc)).2
  have hword : ∀ c ∈ m, (!isBlank c) = true := fun c hc => by rw [(hm c hc).2]; rfl
  have hmnemonic : (m ++ ' ' :: t).takeWhile (fun c => !isBlank c) = m :=
    (List.takeWhile_append_of_pos hword).trans (List.append_nil m)
  have hoperands : (m ++ ' ' :: t).dropWhile (fun c => !isBlank c) = ' ' :: t :=
    List.dropWhile_append_of_pos hword
  rw [assemble, hcomment, htrim, hmnemonic, hoperands]
  cases literals (pieces (' ' :: t)) with
  | none => rfl
  | some ls =>
    change (operationOf m ls.length).bind _ = (operationOf m ls.length).bind _
    congr
    funext mk
    cases assembleFields ls <;> rfl

/-! The operands of a command as numerals. -/

theorem append_numeral_no_comma {n : Nat} (h : n < 256) {p : List Char} (hp : ∀ c ∈ p, c ≠ ',') :
    ∀ c ∈ p ++ numeral n, c ≠ ',' :=
  List.forall_mem_append.mpr ⟨hp, fun c hc => (numeral_plain h c hc).1⟩

/-- One operand or more, between commas. -/
def operandText (n : Nat) (ns : List Nat) : List Char := numeral n ++ ns.flatMap fun m => ',' :: numeral m

theorem operandText_ne_nil (n : Nat) (ns : List Nat) : operandText n ns ≠ [] := nofun

section
variable {n : Nat} {ns : List Nat} (h : ∀ m ∈ n :: ns, m < 256)
include h

theorem operandText_chars : ∀ c ∈ operandText n ns, c ≠ ';' ∧ isBlank c = false := by
  obtain ⟨hn, hns⟩ := List.forall_mem_cons.mp h
  intro c hc
  rcases List.mem_append.mp hc with hc | hc
  · exact (numeral_plain hn c hc).2
  · obtain ⟨m, hm, hc⟩ := List.mem_flatMap.mp hc
    rcases List.mem_cons.mp hc with rfl | hc
    · decide
    · exact (numeral_plain (hns m hm) c hc).2

/-- The pieces of the operands are their numerals, the first after the blanks before it. -/
theorem pieces_operandText {p : List Char} (hp : ∀ c ∈ p, c ≠ ',') :
    pieces (p ++ operandText n ns) = (p ++ numeral n) :: ns.map numeral := by
  induction ns generalizing n p with
  | nil =>
    have hpiece := append_numeral_no_comma (h n (.head _)) hp
    rw [operandText, List.flatMap_nil, List.append_nil, pieces_of_no_comma hpiece, List.map_nil]
  | cons m ms ih =>
    have hpiece := append_numeral_no_comma (h n (.head _)) hp
    have hrest := ih (fun k hk => h k (.tail _ hk)) (p := []) nofun
    rw [operandText, List.flatMap_cons, List.cons_append, ← List.append_assoc, pieces_append_comma hpiece]
    exact congrArg _ hrest

end

theorem trim_numeral {n : Nat} (h : n < 256) : trim (numeral n) = numeral n :=
  trim_eq_self (fun c hc => (numeral_plain h c (List.mem_of_mem_head? hc)).2.2)
    (fun c hc => (numeral_plain h c (List.mem_of_mem_getLast? hc)).2.2)

theorem trim_blank_cons (cs : List Char) : trim (' ' :: cs) = trim cs := by
  rw [trim, List.dropWhile_cons_of_pos rfl, trim]

/-- A number as it is read from a numeral. -/
abbrev numberLiteral (n : Nat) : Literal := ⟨n, none⟩

theorem literals_numerals {ns : List Nat} (h : ∀ n ∈ ns, n < 256) :
    literals (ns.map numeral) = some (ns.map numberLiteral) := by
  induction ns with
  | nil => rfl
  | cons n ns ih =>
    obtain ⟨hn, hns⟩ := List.forall_mem_cons.mp h
    rw [List.map_cons, literals, trim_numeral hn, literal_numeral hn, ih hns]
    rfl

theorem literals_operandText {n : Nat} {ns : List Nat} (h : ∀ m ∈ n :: ns, m < 256) :
    literals (pieces (' ' :: operandText n ns)) = some ((n :: ns).map numberLiteral) := by
  have hpieces : pieces (' ' :: operandText n ns) = (' ' :: numeral n) :: ns.map numeral :=
    pieces_operandText h (p := [' ']) (List.forall_mem_singleton.mpr (by decide))
  have hall := literals_numerals h
  rw [List.map_cons, literals] at hall
  rwa [hpieces, literals, trim_blank_cons]

/-- R67: the operands of a command after `td`, in their order. -/
def furtherOperands : Instr → List Nat
  | .mkscheme f => [f.id]
  | .decode f => [f.id, f.a.toNat]
  | .add f => [f.id, f.a.toNat, f.b.toNat]
  | .sub f => [f.id, f.a.toNat, f.b.toNat]
  | .mul f => [f.id, f.a.toNat, f.b.toNat]
  | .div f => if f.ke then [f.id, f.a.toNat, f.b.toNat, f.k] else [f.id, f.a.toNat, f.b.toNat]

theorem container_numberLiteral (td id : Nat) (x : BitVec Config.W) :
    (numberLiteral x.toNat).container td id = some x := by
  rw [container_of_lt (.inl rfl) x.isLt, BitVec.ofNat_toNat, BitVec.setWidth_eq]

theorem furtherOperands_prefix (i : Instr) :
    furtherOperands i <+: [i.fields.id, i.fields.a.toNat, i.fields.b.toNat, i.fields.k] := by
  cases i with
  | div f =>
    rw [furtherOperands]
    split
    · exact List.prefix_rfl
    · exact ⟨[f.k], rfl⟩
  | _ => exact ⟨_, rfl⟩

section
variable {i : Instr} (h : i.WellFormed)
include h

theorem operands_lt : ∀ n ∈ i.fields.td :: furtherOperands i, n < 256 := by
  obtain ⟨hk, htd, hid⟩ : i.fields.WellFormed 8 := h
  have ha : i.fields.a.toNat < 2 ^ 8 := i.fields.a.isLt
  have hb : i.fields.b.toNat < 2 ^ 8 := i.fields.b.isLt
  have hall : ∀ n ∈ [i.fields.id, i.fields.a.toNat, i.fields.b.toNat, i.fields.k], n < 256 := by
    simp only [List.forall_mem_cons]
    exact ⟨hid, ha, hb, hk, nofun⟩
  exact List.forall_mem_cons.mpr ⟨htd, fun n hn => hall n ((furtherOperands_prefix i).subset hn)⟩

/-- The operands of a command give its fields, those its operation ignores zero. -/
theorem assembleFields_operands :
    assembleFields ((i.fields.td :: furtherOperands i).map numberLiteral) = some (zeroIgnored i).fields := by
  obtain ⟨hk, htd, hid⟩ := h
  replace hk := count_of_lt hk
  replace htd := count_of_lt htd
  replace hid := count_of_lt hid
  have hcontainer := container_numberLiteral i.fields.td i.fields.id
  have ha := hcontainer i.fields.a
  have hb := hcontainer i.fields.b
  cases i with
  | mkscheme f => exact assembleFields_scheme htd hid
  | decode f => exact assembleFields_one htd hid ha
  | div f =>
    obtain ⟨ke, k, td, id, a, b⟩ := f
    cases ke with
    | true => exact assembleFields_precision htd hid ha hb hk
    | false => exact assembleFields_two htd hid ha hb
  | _ => exact assembleFields_two htd hid ha hb

end

/-- A mnemonic with the operands of its command gives the command's operation. -/
theorem operationOf_mnemonicOf (i : Instr) : ∃ mk,
    operationOf (mnemonicOf i) ((i.fields.td :: furtherOperands i).map numberLiteral).length = some mk ∧
      mk (zeroIgnored i).fields = zeroIgnored i := by
  cases i with
  | div f =>
    obtain ⟨ke, k, td, id, a, b⟩ := f
    cases ke <;> exact ⟨Instr.div, rfl, rfl⟩
  | _ => exact ⟨_, rfl, rfl⟩

theorem mnemonicOf_chars (i : Instr) : ∀ c ∈ mnemonicOf i, c ≠ ';' ∧ isBlank c = false := by
  have hall : ((mnemonicOf i).all fun c => decide (c ≠ ';' ∧ isBlank c = false)) = true := by
    cases i <;> rfl
  exact fun c hc => of_decide_eq_true (List.all_eq_true.mp hall c hc)

theorem mnemonicOf_ne_nil (i : Instr) : mnemonicOf i ≠ [] := by
  cases i <;> exact List.cons_ne_nil _ _

/-- The line of a command's mnemonic and operands is read as the command, its ignored fields zero. -/
theorem assemble_operandText {i : Instr} (h : i.WellFormed) :
    assemble (mnemonicOf i ++ ' ' :: operandText i.fields.td (furtherOperands i)) = some (zeroIgnored i) := by
  obtain ⟨mk, hop, hmk⟩ := operationOf_mnemonicOf i
  have hlt := operands_lt h
  rw [assemble_line (mnemonicOf_chars i) (mnemonicOf_ne_nil i) (operandText_chars hlt) (operandText_ne_nil _ _),
    literals_operandText hlt, Option.bind_some, hop, Option.bind_some, assembleFields_operands h,
    Option.map_some, hmk]

/-- Settles O58: a command is written as its mnemonic and the numerals of the fields its operation reads. -/
theorem everyCommandCanBeWritten : Obligations.EveryCommandCanBeWritten := by
  unfold Obligations.EveryCommandCanBeWritten
  intro i hwf hzero
  exact ⟨operandText i.fields.td (furtherOperands i), (assemble_operandText hwf).trans (congrArg some hzero)⟩

end Sys2Proof.Machine
end

section
/-! The Scheme check and the decoded value of a container (40_scheme_decode.md). -/

namespace Sys2Proof.Machine

variable {W : Nat}

/-! What MKSCHEME and DECODE answer (R81 to R83). -/

theorem exec_eq_next (i : Instr) (s : State) :
    exec i s = .next { s with rsp := transact i.op i.fields } := exec_eq_finish i s

/-- R81: whatever the operation, an invalid Scheme is answered and nothing else of the command read. -/
theorem exec_of_invalid {i : Instr} (hv : ¬ ValidScheme i.fields) (s : State) :
    exec i s = .next { s with rsp := raise .invalidScheme } := by
  rw [exec_eq_next, transact_of_invalid (op_toNat_lt i) hv]

theorem exec_mkscheme_of_valid {f : Fields Config.W} (hv : ValidScheme f) (s : State) :
    exec (.mkscheme f) s = .next { s with rsp := answer f false 0 } :=
  congrArg (finish · s) (withScheme_of_valid hv _)

theorem exec_decode_of_valid {f : Fields Config.W} (hv : ValidScheme f) (s : State) :
    exec (.decode f) s = .next { s with rsp := answer f false (sextLow f.td f.a) } :=
  congrArg (finish · s) (withScheme_of_valid hv _)

theorem mkschemeRsp_status_eq_ok_iff (f : Fields W) : (mkschemeRsp f).status = .ok ↔ ValidScheme f := by
  rw [mkschemeRsp]
  rcases withScheme_cases f (answer f false 0) with ⟨hv, h⟩ | ⟨hv, h⟩ <;> rw [h]
  · exact iff_of_true rfl hv
  · exact iff_of_false nofun hv

/-- Sign extension keeps the bits below `td`. -/
theorem getLsbD_sextLow {td j : Nat} (hW : td ≤ W) (hj : j < td) (x : BitVec W) :
    (sextLow td x).getLsbD j = x.getLsbD j := by
  rw [sextLow, BitVec.getLsbD_signExtend, if_pos hj, BitVec.getLsbD_setWidth]
  simp [hj, hj.trans_le hW]

/-! How many Schemes are valid (R80). -/

/-- Counts wide enough for `W` hold every valid Scheme: for each `td` from 1 to `W` the `id` from 0 to `td`. -/
theorem card_valid {W N : Nat} (h : W < N) :
    ((Finset.range N ×ˢ Finset.range N).filter fun p => Valid W p.1 p.2).card
      = ((Finset.Icc 1 W).sigma fun td => Finset.range (td + 1)).card := by
  refine Finset.card_nbij' (fun p => ⟨p.1, p.2⟩) (fun p => (p.1, p.2)) ?_ ?_ (fun _ _ => rfl) (fun _ _ => rfl)
  · intro p hp
    simp only [Finset.mem_coe, Finset.mem_filter, Finset.mem_product, Finset.mem_range] at hp
    simp only [Finset.mem_coe, Finset.mem_sigma, Finset.mem_Icc, Finset.mem_range]
    omega
  · intro p hp
    simp only [Finset.mem_coe, Finset.mem_sigma, Finset.mem_Icc, Finset.mem_range] at hp
    simp only [Finset.mem_coe, Finset.mem_filter, Finset.mem_product, Finset.mem_range]
    omega

/-! The decoded value as a sum over the bits (R84). -/

/-- One more bit read adds its weight. -/
theorem M_succ (n : Nat) (x : BitVec W) : M (n + 1) x = M n x + 2 ^ n * (x.getLsbD n).toNat := by
  rw [M, Nat.mod_pow_succ, ← Nat.toNat_testBit]
  rfl

theorem M_eq_sum_bitVal (n : Nat) (x : BitVec W) : (M n x : ℚ) = ∑ i ∈ Finset.range n, bitVal x i * 2 ^ i := by
  induction n with
  | zero => simp [M, Nat.mod_one]
  | succ n ih =>
    rw [Finset.sum_range_succ, ← ih, M_succ, bitVal]
    push_cast
    ring

/-- The sign bit counts negative, the bits below it as they stand. -/
theorem S_succ (n : Nat) (x : BitVec W) : S (n + 1) x = (M n x : Int) - 2 ^ n * (x.getLsbD n).toNat := by
  rw [S, M_succ, sign, Nat.add_sub_cancel]
  push_cast
  ring

theorem S_eq_sum_bitVal {td : Nat} (h : 1 ≤ td) (x : BitVec W) :
    (S td x : ℚ) = -bitVal x (td - 1) * 2 ^ (td - 1) + ∑ i ∈ Finset.range (td - 1), bitVal x i * 2 ^ i := by
  obtain ⟨n, rfl⟩ : ∃ n, td = n + 1 := ⟨td - 1, by omega⟩
  rw [Nat.add_sub_cancel, ← M_eq_sum_bitVal, S_succ, bitVal]
  push_cast
  ring

/-- The weight of bit `i` under a Scheme is its integer weight over `2^q`. -/
theorem bit_weight {td id : Nat} (h : id ≤ td) (i : Nat) :
    (2 : ℚ) ^ ((i : ℤ) - ((td : ℤ) - id)) = 2 ^ i / 2 ^ (td - id) := by
  rw [← Nat.cast_sub h, zpow_sub₀ two_ne_zero, zpow_natCast, zpow_natCast]

/-- `bit_weight` for the sign bit. -/
theorem sign_weight {td id : Nat} (htd : 1 ≤ td) (h : id ≤ td) :
    (2 : ℚ) ^ ((id : ℤ) - 1) = 2 ^ (td - 1) / 2 ^ (td - id) := by
  rw [← bit_weight h]
  congr 1
  omega

/-- R84: the sum of the bits at their weights is the closed form. -/
theorem decodeSum_eq_V {td id : Nat} (htd : 1 ≤ td) (hid : id ≤ td) (x : BitVec W) :
    decodeSum td id x = V td id x := by
  rw [decodeSum, V, S_eq_sum_bitVal htd, sign_weight htd hid, add_div, Finset.sum_div, mul_div_assoc]
  simp only [bit_weight hid, mul_div_assoc]

/-! The decoded value as a loop over the bits (R85). -/

/-- Below the sign bit, with `e = j - 1 - q` at position `j`, the loop adds each bit at the weight
`2^(i - q)`. -/
theorem decodeLoopFrom_eq_sum {td j : Nat} (h : j < td) (x : BitVec W) (q : ℤ) (acc : ℚ) :
    decodeLoopFrom td x j ((j : ℤ) - 1 - q) acc
      = acc + ∑ i ∈ Finset.range j, bitVal x i * (2 : ℚ) ^ ((i : ℤ) - q) := by
  induction j generalizing acc with
  | zero => simp [decodeLoopFrom]
  | succ j ih =>
    have hbelow : ¬ (j = td - 1 ∧ x.getLsbD j = true) := by omega
    have hexp : ((j + 1 : Nat) : ℤ) - 1 - q = (j : ℤ) - q := by push_cast; ring
    have hnext : (j : ℤ) - q - 1 = (j : ℤ) - 1 - q := by ring
    rw [decodeLoopFrom, hexp, hnext]
    simp only [if_neg hbelow]
    rw [ih (by omega), Finset.sum_range_succ]
    ring

/-- The loop's first turn takes the sign bit off: a clear bit has no term, so its sign is free. -/
theorem decodeLoopFrom_sign (n : Nat) (x : BitVec W) (e : ℤ) :
    decodeLoopFrom (n + 1) x (n + 1) e 0
      = decodeLoopFrom (n + 1) x n (e - 1) (-bitVal x n * (2 : ℚ) ^ e) := by
  rw [decodeLoopFrom]
  cases hbit : x.getLsbD n <;> simp [bitVal, hbit]

/-- R85: the loop adds exactly the terms of R84. -/
theorem decodeLoop_eq_decodeSum {td id : Nat} (htd : 1 ≤ td) (x : BitVec W) :
    decodeLoop td id x = decodeSum td id x := by
  obtain ⟨n, rfl⟩ : ∃ n, td = n + 1 := ⟨td - 1, by omega⟩
  have hexp : (id : ℤ) - 1 - 1 = (n : ℤ) - 1 - (((n + 1 : Nat) : ℤ) - id) := by push_cast; ring
  rw [decodeLoop, decodeLoopFrom_sign, hexp, decodeLoopFrom_eq_sum n.lt_succ_self]
  rfl

/-! The representable range (R87). -/

theorem granularity_pos (td id : Nat) : 0 < granularity td id := by
  unfold granularity
  positivity

theorem V_eq_S_mul_granularity (td id : Nat) (x : BitVec W) : V td id x = S td x * granularity td id := by
  rw [V, granularity, mul_one_div]

/-- R87: a multiple of the granularity is representable exactly when its numerator is in range. -/
theorem representable_iff_inRange {td id : Nat} (htd : 1 ≤ td) (hid : id ≤ td) (n : Int) :
    Representable td id (n * granularity td id) ↔ InRange td n := by
  have hlimit : (2 : ℚ) ^ ((id : ℤ) - 1) = 2 ^ (td - 1) * granularity td id := by
    rw [sign_weight htd hid, granularity, mul_one_div]
  have hhigh : (2 : ℚ) ^ (td - 1) * granularity td id - granularity td id
      = (2 ^ (td - 1) - 1) * granularity td id := by ring
  have hpos := granularity_pos td id
  rw [Representable, hlimit, hhigh, ← neg_mul, mul_le_mul_iff_left₀ hpos, mul_le_mul_iff_left₀ hpos]
  norm_cast

theorem representable_V {td id : Nat} (htd : 1 ≤ td) (hid : id ≤ td) (x : BitVec W) :
    Representable td id (V td id x) := by
  rw [V_eq_S_mul_granularity, representable_iff_inRange htd hid]
  exact S_inRange htd x

theorem V_eq_mul_granularity_iff {td id : Nat} {x : BitVec W} {n : Int} :
    V td id x = n * granularity td id ↔ S td x = n := by
  rw [V_eq_S_mul_granularity, mul_left_inj' (granularity_pos td id).ne', Int.cast_inj]

/-- A container of `td` bits is the narrowing of its own numerator. -/
theorem narrow_S {td : Nat} (hW : td ≤ W) {x : BitVec W} (hx : x.toNat < 2 ^ td) :
    narrow W td (S td x) = x := by
  apply BitVec.eq_of_toNat_eq
  zify
  rw [narrow_toNat_int hW, S_emod, M, Nat.mod_eq_of_lt hx]

theorem narrow_toNat_lt {td : Nat} (hW : td ≤ W) (z : Int) : (narrow W td z).toNat < 2 ^ td := by
  have hlt := Int.emod_lt_of_pos z (by positivity : (0 : Int) < 2 ^ td)
  rw [← narrow_toNat_int hW] at hlt
  exact_mod_cast hlt

/-! The edge Schemes (R86). -/

/-- With `td = id` nothing is fractional. -/
theorem V_self (td : Nat) (x : BitVec W) : V td td x = S td x := by
  rw [V, Nat.sub_self, pow_zero, div_one]

/-- A container of one bit holds the sign bit alone. -/
theorem S_one (x : BitVec W) : (S 1 x : ℚ) = -bitVal x 0 := by
  simpa using S_eq_sum_bitVal le_rfl x

/-! The obligations of 40_scheme_decode.md. -/

/-- Settles O21: MKSCHEME answers OK past the Scheme check only, and the valid Schemes are counted by `td`. -/
theorem validSchemes : Obligations.ValidSchemes := by
  unfold Obligations.ValidSchemes
  refine ⟨?status, ?count, by decide⟩
  case status =>
    intro f s t h
    rw [exec_next h]
    exact mkschemeRsp_status_eq_ok_iff f
  case count =>
    intro W DW h
    rw [card_valid h, Finset.card_sigma]
    simp only [Finset.card_range]

/-- Settles O22, by the Scheme check. -/
theorem mkschemeChecksTheScheme : Obligations.MkschemeChecksTheScheme := by
  unfold Obligations.MkschemeChecksTheScheme
  exact fun f s => ⟨fun hv => exec_mkscheme_of_valid hv s, fun hv => exec_of_invalid (i := .mkscheme f) hv s⟩

/-- Settles O23: DECODE answers the sign-extended container, which reads as `S`. -/
theorem decodeAnswersTheDecodedValue : Obligations.DecodeAnswersTheDecodedValue := by
  unfold Obligations.DecodeAnswersTheDecodedValue
  refine fun f s => ⟨fun hv => ?_, fun hv => exec_of_invalid (i := .decode f) hv s⟩
  have ⟨htd, hW, _⟩ := hv
  have hS : (sextLow f.td f.a).toInt = S f.td f.a := toInt_sextLow htd hW f.a
  refine ⟨_, exec_decode_of_valid hv s, rfl, rfl, rfl, hS, fun j hj => getLsbD_sextLow hW hj f.a, ?_⟩
  change ((sextLow f.td f.a).toInt : ℚ) / 2 ^ fractionDigits f = _
  rw [hS]
  rfl

/-- Settles O24: dividing the integer weights by `2^q` gives the weights of the Scheme. -/
theorem decodedValueIsTheWeightedSum : Obligations.DecodedValueIsTheWeightedSum := by
  unfold Obligations.DecodedValueIsTheWeightedSum
  intro W td id x ⟨htd, _, hid⟩
  exact ⟨decodeSum_eq_V htd hid x, S_eq_sum_bitVal htd x⟩

/-- Settles O25: the loop adds the terms of the weighted sum. -/
theorem decodeLoopComputesTheValue : Obligations.DecodeLoopComputesTheValue := by
  unfold Obligations.DecodeLoopComputesTheValue
  intro W td id x ⟨htd, _, hid⟩
  rw [decodeLoop_eq_decodeSum htd, decodeSum_eq_V htd hid]

/-- Settles O26: the ranges are the representable range at `id = 0` and `id = 1`. -/
theorem edgeSchemes : Obligations.EdgeSchemes := by
  unfold Obligations.EdgeSchemes
  refine ⟨?noIntegerBit, fun W td x _ => V_self td x, ?oneBit, ?signBitOnly⟩
  case noIntegerBit =>
    intro W td x ⟨htd, _, hid⟩
    refine ⟨decodeSum_eq_V htd hid x, ?_⟩
    simpa [Representable, granularity] using representable_V htd hid x
  case oneBit =>
    intro W x _
    exact ⟨(V_self 1 x).trans (S_one x), by rw [V, S_one, Nat.sub_zero, pow_one]⟩
  case signBitOnly =>
    intro W td x ⟨htd, _, hid⟩
    simpa [Representable, granularity] using representable_V htd hid x

/-- Settles O27: the numerators in range are each the `S` of one container, the narrowed one. -/
theorem decodedValuesFillTheRange : Obligations.DecodedValuesFillTheRange := by
  unfold Obligations.DecodedValuesFillTheRange
  intro W td id ⟨htd, hW, hid⟩
  refine ⟨fun x => ⟨representable_V htd hid x, S td x, V_eq_S_mul_granularity td id x⟩, fun n hn => ?_⟩
  have hin : InRange td n := (representable_iff_inRange htd hid n).mp hn
  refine ⟨narrow W td n, narrow_toNat_lt hW n,
    V_eq_mul_granularity_iff.mpr ((inRange_iff_S_narrow htd hW n).mp hin), fun y hy hV => ?_⟩
  rw [← V_eq_mul_granularity_iff.mp hV, narrow_S hW hy]

end Sys2Proof.Machine
end

section
/-! ADD and SUB (41_add_sub.md): the narrowing of a sum or a difference of two containers, as an integer
and as a decoded value. -/

namespace Sys2Proof.Machine

variable {W : Nat}

/-! Narrowing modulo `2^td`. -/

theorem narrow_congr {td : Nat} {y z : Int} (h : y ≡ z [ZMOD 2 ^ td]) : narrow W td y = narrow W td z := by
  rw [narrow, narrow, h.eq]

/-- A container reads modulo `2^td` as the number narrowed into it. -/
theorem S_narrow_modEq {td : Nat} (hW : td ≤ W) (z : Int) : S td (narrow W td z) ≡ z [ZMOD 2 ^ td] :=
  S_narrow_emod hW z

theorem S_modEq_M (td : Nat) (x : BitVec W) : S td x ≡ M td x [ZMOD 2 ^ td] :=
  (S_emod td x).trans (Int.emod_eq_of_lt (Int.natCast_nonneg _) (M_lt_int td x)).symm

/-- The sum of two containers read unsigned, reduced to `W` bits and then to `td`, is that of their low bits. -/
theorem add_toNat_mod_eq {td : Nat} (hW : td ≤ W) (x y : BitVec W) :
    (x.toNat + y.toNat) % 2 ^ W % 2 ^ td = (M td x + M td y) % 2 ^ td := by
  rw [Nat.mod_mod_of_dvd _ (pow_dvd_pow 2 hW), Nat.add_mod]
  rfl

/-! The parts of an answer that narrows. -/

@[simp] theorem answerNarrowed_res (f : Fields W) (z : Int) : (answerNarrowed f z).res = narrow W f.td z := rfl

@[simp] theorem answerNarrowed_ovf (f : Fields W) (z : Int) : (answerNarrowed f z).ovf = ovfOf f.td z := rfl

@[simp] theorem answerNarrowed_q (f : Fields W) (z : Int) : (answerNarrowed f z).q = f.td - f.id := rfl

/-! An integer out of range, but no further than one wrap (R104). -/

theorem abs_S_add_abs_S_le {td : Nat} (h : 1 ≤ td) (x y : BitVec W) : |S td x| + |S td y| ≤ 2 ^ td := by
  have hx := (S_inRange h x).abs_le_half
  have hy := (S_inRange h y).abs_le_half
  have hhalf := two_pow_eq_two_mul_half h
  omega

theorem abs_S_add_S_le {td : Nat} (h : 1 ≤ td) (x y : BitVec W) : |S td x + S td y| ≤ 2 ^ td :=
  (abs_add_le _ _).trans (abs_S_add_abs_S_le h x y)

theorem abs_S_sub_S_le {td : Nat} (h : 1 ≤ td) (x y : BitVec W) : |S td x - S td y| ≤ 2 ^ td :=
  (abs_sub _ _).trans (abs_S_add_abs_S_le h x y)

/-- A number narrowed reads back as the one in range that it equals modulo `2^td`. -/
theorem S_narrow_eq_of_modEq {td : Nat} (h : 1 ≤ td) (hW : td ≤ W) {y z : Int} (hy : InRange td y)
    (hyz : y ≡ z [ZMOD 2 ^ td]) : S td (narrow W td z) = y :=
  (S_inRange h _).eq_of_emod_eq h hy ((S_narrow_modEq hW z).trans hyz.symm)

section
variable {td : Nat} (h : 1 ≤ td) (hW : td ≤ W) {z : Int} (hz : |z| ≤ 2 ^ td) (hout : ¬ InRange td z)
include h hW hz hout

theorem S_narrow_of_too_large (hpos : 0 < z) : S td (narrow W td z) = z - 2 ^ td := by
  have hhalf := two_pow_eq_two_mul_half h
  obtain ⟨-, hhigh⟩ := abs_le.mp hz
  exact S_narrow_eq_of_modEq h hW ⟨by omega, by omega⟩ (Int.sub_emod_right z _)

theorem S_narrow_of_too_small (hneg : z < 0) : S td (narrow W td z) = z + 2 ^ td := by
  have hhalf := two_pow_eq_two_mul_half h
  obtain ⟨hlow, -⟩ := abs_le.mp hz
  exact S_narrow_eq_of_modEq h hW ⟨by omega, by omega⟩ (Int.add_emod_right z _)

end

/-! The same as decoded values: an integer `z` stands for `z * granularity`. -/

theorem V_add_V (td id : Nat) (x y : BitVec W) :
    V td id x + V td id y = (S td x + S td y : Int) * granularity td id := by
  rw [V_eq_S_mul_granularity, V_eq_S_mul_granularity, Int.cast_add, add_mul]

theorem V_sub_V (td id : Nat) (x y : BitVec W) :
    V td id x - V td id y = (S td x - S td y : Int) * granularity td id := by
  rw [V_eq_S_mul_granularity, V_eq_S_mul_granularity, Int.cast_sub, sub_mul]

/-- One wrap of the container is `2^id`. -/
theorem two_pow_mul_granularity {td id : Nat} (h : id ≤ td) : (2 : ℚ) ^ td * granularity td id = 2 ^ id := by
  rw [granularity, mul_one_div, div_eq_iff (by positivity), ← pow_add, Nat.add_sub_cancel' h]

section
variable {f : Fields W} (hv : ValidScheme f) (z : Int)
include hv

theorem answerNarrowed_ovf_iff_not_representable :
    (answerNarrowed f z).ovf = true ↔ ¬ Representable f.td f.id (z * granularity f.td f.id) := by
  rw [answerNarrowed_ovf, ovfOf_iff, representable_iff_inRange hv.1 hv.2.2]

/-- R103: without overflow an exact result reads back as it is. -/
theorem V_answerNarrowed_of_not_ovf (hovf : (answerNarrowed f z).ovf = false) :
    V f.td f.id (answerNarrowed f z).res = z * granularity f.td f.id := by
  have hin : InRange f.td z := by
    by_contra hout
    exact Bool.eq_false_iff.mp hovf ((ovfOf_iff f.td z).mpr hout)
  exact V_eq_mul_granularity_iff.mpr ((inRange_iff_S_narrow hv.1 hv.2.1 z).mp hin)

/-- R104: with overflow, an exact result of at most one wrap reads back one wrap nearer to zero. -/
theorem V_answerNarrowed_of_ovf (hz : |z| ≤ 2 ^ f.td) (hovf : (answerNarrowed f z).ovf = true) :
    (0 < z * granularity f.td f.id →
      V f.td f.id (answerNarrowed f z).res = z * granularity f.td f.id - 2 ^ f.id) ∧
    (z * granularity f.td f.id < 0 →
      V f.td f.id (answerNarrowed f z).res = z * granularity f.td f.id + 2 ^ f.id) := by
  obtain ⟨htd, hW, hid⟩ := hv
  have hout : ¬ InRange f.td z := (ovfOf_iff f.td z).mp hovf
  have hpos := granularity_pos f.td f.id
  rw [← two_pow_mul_granularity hid, ← sub_mul, ← add_mul]
  constructor
  · intro hlarge
    have hS := S_narrow_of_too_large htd hW hz hout (by exact_mod_cast pos_of_mul_pos_left hlarge hpos.le)
    exact_mod_cast V_eq_mul_granularity_iff.mpr hS
  · intro hsmall
    have hS := S_narrow_of_too_small htd hW hz hout (by exact_mod_cast neg_of_mul_neg_left hsmall hpos.le)
    exact_mod_cast V_eq_mul_granularity_iff.mpr hS

end

/-! What ADD and SUB answer (R101, R102). -/

section
variable {f : Fields W} (hv : ValidScheme f)
include hv

/-- ADD of any two containers under the Scheme of `f`. -/
theorem addRsp_with_operands (x y : BitVec W) :
    addRsp { f with a := x, b := y } = answerNarrowed f (S f.td x + S f.td y) := withScheme_of_valid hv _

/-- SUB of any two containers under the Scheme of `f`. -/
theorem subRsp_with_operands (x y : BitVec W) :
    subRsp { f with a := x, b := y } = answerNarrowed f (S f.td x - S f.td y) := withScheme_of_valid hv _

theorem addRsp_of_valid : addRsp f = answerNarrowed f (S f.td f.a + S f.td f.b) := withScheme_of_valid hv _

theorem subRsp_of_valid : subRsp f = answerNarrowed f (S f.td f.a - S f.td f.b) := withScheme_of_valid hv _

end

theorem exec_add_of_valid {f : Fields Config.W} (hv : ValidScheme f) (s : State) :
    exec (.add f) s = .next { s with rsp := answerNarrowed f (S f.td f.a + S f.td f.b) } :=
  congrArg (finish · s) (addRsp_of_valid hv)

theorem exec_sub_of_valid {f : Fields Config.W} (hv : ValidScheme f) (s : State) :
    exec (.sub f) s = .next { s with rsp := answerNarrowed f (S f.td f.a - S f.td f.b) } :=
  congrArg (finish · s) (subRsp_of_valid hv)

/-- ADD of the low bits: reading them signed changes nothing modulo `2^td`. -/
theorem narrow_S_add_S_toNat {td : Nat} (hW : td ≤ W) (x y : BitVec W) :
    (narrow W td (S td x + S td y)).toNat = (M td x + M td y) % 2 ^ td := by
  zify
  rw [narrow_toNat_int hW]
  exact (S_modEq_M td x).add (S_modEq_M td y)

theorem narrow_S_sub_S_toNat {td : Nat} (hW : td ≤ W) (x y : BitVec W) :
    ((narrow W td (S td x - S td y)).toNat : Int) = ((M td x : Int) - M td y) % 2 ^ td := by
  rw [narrow_toNat_int hW]
  exact (S_modEq_M td x).sub (S_modEq_M td y)

/-! The laws of the adder (R105). -/

/-- R105 (b): a result fed to the next command counts modulo `2^td` only, so the order of adding is free. -/
theorem narrow_add_assoc {td : Nat} (hW : td ≤ W) (x y z : Int) :
    narrow W td (S td (narrow W td (x + y)) + z) = narrow W td (x + S td (narrow W td (y + z))) := by
  apply narrow_congr
  calc S td (narrow W td (x + y)) + z
      ≡ x + y + z [ZMOD 2 ^ td] := (S_narrow_modEq hW _).add_right z
    _ = x + (y + z) := add_assoc x y z
    _ ≡ x + S td (narrow W td (y + z)) [ZMOD 2 ^ td] := (S_narrow_modEq hW _).symm.add_left x

/-- R105 (c) for the result: the negative read back counts modulo `2^td` only. -/
theorem narrow_sub_eq_narrow_add_neg {td : Nat} (hW : td ≤ W) (x y : Int) :
    narrow W td (x - y) = narrow W td (x + S td (narrow W td (-y))) := by
  rw [sub_eq_add_neg]
  exact narrow_congr ((S_narrow_modEq hW _).symm.add_left x)

/-- R105 (c) for the overflow output: only the most negative value has no negative. -/
theorem S_narrow_neg {td : Nat} (h : 1 ≤ td) (hW : td ≤ W) {x : BitVec W} (hx : S td x ≠ -2 ^ (td - 1)) :
    S td (narrow W td (-S td x)) = -S td x := by
  obtain ⟨hlow, hhigh⟩ := S_inRange h x
  have hneg : InRange td (-S td x) := ⟨by omega, by omega⟩
  exact (inRange_iff_S_narrow h hW _).mp hneg

/-- R105 (d): taking `y` off the narrowed sum leaves `x` modulo `2^td`. -/
theorem narrow_add_sub_cancel {td : Nat} (hW : td ≤ W) (x y : Int) :
    narrow W td (S td (narrow W td (x + y)) - y) = narrow W td x := by
  apply narrow_congr
  simpa using (S_narrow_modEq hW (x + y)).sub_right y

theorem narrow_S_toNat {td : Nat} (hW : td ≤ W) (x : BitVec W) : (narrow W td (S td x)).toNat = M td x := by
  zify
  rw [narrow_toNat_int hW, S_emod]

/-! The obligations of 41_add_sub.md. -/

/-- Settles O30: `S` and the unsigned readings agree modulo `2^td`, and the sum of two decoded values is the
integer sum at the granularity of the Scheme. -/
theorem addAnswersTheWrappedSum : Obligations.AddAnswersTheWrappedSum := by
  unfold Obligations.AddAnswersTheWrappedSum
  refine fun f s => ⟨fun hv => ?_, fun hv => exec_of_invalid (i := .add f) hv s⟩
  have hsum := narrow_S_add_S_toNat hv.2.1 f.a f.b
  refine ⟨_, exec_add_of_valid hv s, rfl, rfl, rfl, hsum, hsum.trans (add_toNat_mod_eq hv.2.1 f.a f.b).symm,
    ovfOf_iff _ _, ?_⟩
  rw [V_add_V]
  exact answerNarrowed_ovf_iff_not_representable hv _

/-- Settles O31, as for ADD. -/
theorem subAnswersTheWrappedDifference : Obligations.SubAnswersTheWrappedDifference := by
  unfold Obligations.SubAnswersTheWrappedDifference
  refine fun f s => ⟨fun hv => ?_, fun hv => exec_of_invalid (i := .sub f) hv s⟩
  refine ⟨_, exec_sub_of_valid hv s, rfl, rfl, rfl, narrow_S_sub_S_toNat hv.2.1 f.a f.b, ovfOf_iff _ _, ?_⟩
  rw [V_sub_V]
  exact answerNarrowed_ovf_iff_not_representable hv _

/-- Settles O32: `id` stands in neither the exact integer nor its narrowing. -/
theorem addSubIgnoreTheBinaryPoint : Obligations.AddSubIgnoreTheBinaryPoint := by
  unfold Obligations.AddSubIgnoreTheBinaryPoint
  intro W f g hf hg htd ha hb
  rw [addRsp_of_valid hf, addRsp_of_valid hg, subRsp_of_valid hf, subRsp_of_valid hg, ← ha, ← hb]
  simp only [answerNarrowed_res, answerNarrowed_ovf, answerNarrowed_q, htd, and_self]

/-- Settles O33, from the value of an answer without overflow. -/
theorem addSubExactWithoutOverflow : Obligations.AddSubExactWithoutOverflow := by
  unfold Obligations.AddSubExactWithoutOverflow
  intro W f hv
  rw [addRsp_of_valid hv, subRsp_of_valid hv, V_add_V, V_sub_V]
  exact ⟨V_answerNarrowed_of_not_ovf hv _, V_answerNarrowed_of_not_ovf hv _⟩

/-- Settles O34: a sum or a difference of two containers is at most one wrap long. -/
theorem addSubOverflowIsOneWrap : Obligations.AddSubOverflowIsOneWrap := by
  unfold Obligations.AddSubOverflowIsOneWrap
  intro W f hv
  rw [addRsp_of_valid hv, subRsp_of_valid hv, V_add_V, V_sub_V]
  exact ⟨fun hovf => ⟨rfl, V_answerNarrowed_of_ovf hv _ (abs_S_add_S_le hv.1 f.a f.b) hovf⟩,
    fun hovf => ⟨rfl, V_answerNarrowed_of_ovf hv _ (abs_S_sub_S_le hv.1 f.a f.b) hovf⟩⟩

/-- Settles O35: a narrowed result counts modulo `2^td` only, where addition is commutative, associative and
undone by subtraction. -/
theorem adderLaws : Obligations.AdderLaws := by
  unfold Obligations.AdderLaws
  intro W f c hv
  have ⟨htd, hW, _⟩ := hv
  rw [addRsp_of_valid hv, subRsp_of_valid hv]
  simp only [addRsp_with_operands hv, subRsp_with_operands hv]
  refine ⟨?commutative, ?associative, ⟨?negative, ?negativeOvf⟩, ?cancel⟩
  case commutative =>
    rw [add_comm]
    exact ⟨rfl, rfl⟩
  case associative => exact narrow_add_assoc hW _ _ _
  case negative => exact narrow_sub_eq_narrow_add_neg hW _ _
  case negativeOvf =>
    intro hb
    rw [S_narrow_neg htd hW hb, sub_eq_add_neg]
  case cancel => exact (congrArg BitVec.toNat (narrow_add_sub_cancel hW _ _)).trans (narrow_S_toNat hW f.a)

end Sys2Proof.Machine
end

section
/-! The three shifts of the block scale_adjuster (42_scale_adjuster.md R116 to R118). -/

namespace Sys2Proof.Machine

theorem preDiv_eq_shl (sa : Int) (k : Nat) : preDiv sa k = shl sa k := rfl

theorem postDiv_eq_shl (quot : Int) (s : Nat) : postDiv quot s = shl quot s := rfl

theorem postMul_eq_ediv (p : Int) (q : Nat) : postMul p q = p / 2 ^ q := rfl

theorem postMul_zero (p : Int) : postMul p 0 = p := by rw [postMul_eq_ediv, pow_zero, Int.ediv_one]

/-- `postMul p q` is the largest number whose multiple of `2^q` does not exceed `p`. -/
theorem postMul_brackets (p : Int) (q : Nat) :
    postMul p q * 2 ^ q ≤ p ∧ p < (postMul p q + 1) * 2 ^ q := by
  have hpow : (0 : Int) < 2 ^ q := by positivity
  exact ⟨Int.ediv_mul_le p hpow.ne', Int.lt_ediv_add_one_mul_self p hpow⟩

/-- The floor and the truncation of a quotient part only below zero, and there only for an inexact quotient. -/
theorem tdiv_two_pow_eq_postMul_add (p : Int) (q : Nat) :
    tdiv p (2 ^ q) = postMul p q + if 0 ≤ p ∨ (2 : Int) ^ q ∣ p then 0 else 1 := by
  rw [postMul_eq_ediv, tdiv, Int.tdiv_eq_ediv, Int.sign_eq_one_of_pos (by positivity)]

theorem postMul_eq_tdiv {p : Int} {q : Nat} (h : 0 ≤ p ∨ (2 : Int) ^ q ∣ p) :
    postMul p q = tdiv p (2 ^ q) := by
  rw [tdiv_two_pow_eq_postMul_add, if_pos h, add_zero]

theorem postMul_eq_tdiv_sub_one {p : Int} {q : Nat} (hneg : p < 0) (hdvd : ¬ (2 : Int) ^ q ∣ p) :
    postMul p q = tdiv p (2 ^ q) - 1 := by
  rw [tdiv_two_pow_eq_postMul_add, if_neg (not_or_intro hneg.not_ge hdvd), add_sub_cancel_right]

/-- Settles O36: PRE_DIV and POST_DIV are the exact left shift, and POST_MUL is the floor. -/
theorem scaleShifts : Obligations.ScaleShifts := by
  unfold Obligations.ScaleShifts
  refine ⟨?preDiv, ?postMul, ?postDiv⟩
  case preDiv =>
    intro W f k hv hk
    rw [preDiv_eq_shl]
    exact ⟨shl_eq_mul_two_pow _ _, shl_S_inRange hv hk f.a⟩
  case postMul =>
    intro p q
    obtain ⟨hlow, hhigh⟩ := postMul_brackets p q
    exact ⟨hlow, hhigh, postMul_eq_tdiv, postMul_eq_tdiv_sub_one, postMul_zero p⟩
  case postDiv =>
    intro quot s
    rw [postDiv_eq_shl, postDiv_eq_shl]
    exact ⟨shl_eq_mul_two_pow _ _, Dvd.intro_left quot rfl, shl_zero quot⟩

end Sys2Proof.Machine
end

section
/-! MUL (43_multiply.md): the floor of the product over `2^q`, its narrowing, and both as decoded values. -/

namespace Sys2Proof.Machine

variable {W : Nat}

/-! The post-multiply shift of a bounded product. -/

theorem postMul_nonneg {p : Int} (h : 0 ≤ p) (q : Nat) : 0 ≤ postMul p q := Int.ediv_nonneg h (by positivity)

theorem postMul_le_neg_one {p : Int} (h : p < 0) (q : Nat) : postMul p q ≤ -1 :=
  Int.le_sub_one_of_lt (Int.ediv_neg_of_neg_of_pos h (by positivity))

theorem postMul_zero_left (q : Nat) : postMul 0 q = 0 := Int.zero_ediv _

/-- A multiple of `2^q` is shifted without loss. -/
theorem postMul_mul_two_pow (z : Int) (q : Nat) : postMul (z * 2 ^ q) q = z :=
  Int.mul_ediv_cancel z (by positivity)

theorem le_postMul_iff {z p : Int} {q : Nat} : z ≤ postMul p q ↔ z * 2 ^ q ≤ p :=
  Int.le_ediv_iff_mul_le (by positivity)

theorem postMul_lt_iff {z p : Int} {q : Nat} : postMul p q < z ↔ p < z * 2 ^ q :=
  Int.ediv_lt_iff_lt_mul (by positivity)

/-- The shift brings a product in range exactly when the product is in the range of `q` bits more. -/
theorem inRange_postMul_iff {td q : Nat} {p : Int} :
    InRange td (postMul p q) ↔ -2 ^ (td - 1 + q) ≤ p ∧ p < 2 ^ (td - 1 + q) := by
  rw [InRange, Int.le_sub_one_iff, le_postMul_iff, postMul_lt_iff, pow_add, neg_mul]

theorem abs_postMul_le {m q : Nat} (hq : q ≤ m) {p : Int} (h : |p| ≤ 2 ^ m) :
    |postMul p q| ≤ 2 ^ (m - q) := by
  have hpow : (2 : Int) ^ m = 2 ^ (m - q) * 2 ^ q := by rw [← pow_add, Nat.sub_add_cancel hq]
  obtain ⟨hlow, hhigh⟩ := abs_le.mp h
  obtain ⟨hz, -⟩ := postMul_brackets p q
  refine abs_le.mpr ⟨?_, ?_⟩
  · rw [le_postMul_iff, neg_mul, ← hpow]
    exact hlow
  · exact le_of_mul_le_mul_right (hz.trans (hhigh.trans_eq hpow)) (by positivity)

/-! The product of two containers. -/

theorem half_mul_half {td : Nat} (h : 1 ≤ td) : (2 : Int) ^ (td - 1) * 2 ^ (td - 1) = 2 ^ (2 * td - 2) := by
  rw [← pow_add]
  congr 1
  omega

theorem abs_S_mul_S_le_scheme {td : Nat} (h : 1 ≤ td) (x y : BitVec W) :
    |S td x * S td y| ≤ 2 ^ (2 * td - 2) := by
  rw [abs_mul, ← half_mul_half h]
  exact mul_le_mul (S_inRange h x).abs_le_half (S_inRange h y).abs_le_half (abs_nonneg _) (by positivity)

/-- A factor of a product of full magnitude has full magnitude, which only the most negative value has. -/
theorem S_eq_of_two_pow_le_mul {td : Nat} (h : 1 ≤ td) {x y : BitVec W}
    (hle : 2 ^ (2 * td - 2) ≤ S td x * S td y) : S td x = -2 ^ (td - 1) := by
  have hmul : 2 ^ (td - 1) * 2 ^ (td - 1) ≤ |S td x| * 2 ^ (td - 1) :=
    calc (2 : Int) ^ (td - 1) * 2 ^ (td - 1) ≤ |S td x * S td y| :=
          (half_mul_half h).trans_le (hle.trans (le_abs_self _))
      _ = |S td x| * |S td y| := abs_mul _ _
      _ ≤ |S td x| * 2 ^ (td - 1) := mul_le_mul_of_nonneg_left (S_inRange h y).abs_le_half (abs_nonneg _)
  have hfull : 2 ^ (td - 1) ≤ |S td x| := le_of_mul_le_mul_right hmul (by positivity)
  obtain ⟨hlow, hhigh⟩ := S_inRange h x
  rcases le_abs'.mp hfull with hneg | hpos
  · exact le_antisymm hneg hlow
  · omega

/-- R134: only two most negative values have a product of full magnitude and positive sign. -/
theorem two_pow_le_S_mul_S_iff {td : Nat} (h : 1 ≤ td) (x y : BitVec W) :
    2 ^ (2 * td - 2) ≤ S td x * S td y ↔ S td x = -2 ^ (td - 1) ∧ S td y = -2 ^ (td - 1) := by
  constructor
  · exact fun hle => ⟨S_eq_of_two_pow_le_mul h hle, S_eq_of_two_pow_le_mul h (hle.trans_eq (mul_comm _ _))⟩
  · rintro ⟨hx, hy⟩
    rw [hx, hy, neg_mul_neg, half_mul_half h]

/-- Containers of one bit hold 0 and -1, so their product is not negative. -/
theorem S_one_mul_S_one_nonneg (x y : BitVec W) : 0 ≤ S 1 x * S 1 y := by
  have hnonpos : ∀ u : BitVec W, S 1 u ≤ 0 := fun u => (S_inRange le_rfl u).2
  exact mul_nonneg_of_nonpos_of_nonpos (hnonpos x) (hnonpos y)

/-- With `id = 0` the shift takes off `td` bits, and a quarter of the container's range is left. -/
theorem abs_postMul_S_mul_S_le {td : Nat} (h : 1 ≤ td) (x y : BitVec W) :
    |postMul (S td x * S td y) td| * 4 ≤ 2 ^ td := by
  have hp := abs_S_mul_S_le_scheme h x y
  rcases h.eq_or_lt with rfl | htwo
  · have hlow := postMul_nonneg (S_one_mul_S_one_nonneg x y) 1
    have hhigh : postMul (S 1 x * S 1 y) 1 < 1 := postMul_lt_iff.mpr ((abs_le.mp hp).2.trans_lt (by decide))
    have hzero : postMul (S 1 x * S 1 y) 1 = 0 := by omega
    rw [hzero]
    decide
  · have hz := abs_postMul_le (q := td) (by omega) hp
    calc |postMul (S td x * S td y) td| * 4
        ≤ 2 ^ (2 * td - 2 - td) * 2 ^ 2 := mul_le_mul_of_nonneg_right hz (by decide)
      _ = 2 ^ td := by rw [← pow_add]; congr 1; omega

/-- The unit of a Scheme with at least two integer digits, its container `2^q`, reads as it stands. -/
theorem S_ofNat_two_pow {td q : Nat} (hq : q + 2 ≤ td) (hW : td ≤ W) :
    S td (BitVec.ofNat W (2 ^ q)) = 2 ^ q := by
  have hmod : ((2 : Int) ^ q % 2 ^ td).toNat = 2 ^ q := by
    rw [Int.emod_eq_of_lt (by positivity) (pow_lt_pow_right₀ (by decide) (by omega))]
    exact_mod_cast Int.toNat_natCast (2 ^ q)
  have hin : InRange td ((2 : Int) ^ q) :=
    inRange_of_abs_le hq (abs_of_nonneg (by positivity : (0 : Int) ≤ 2 ^ q)).le
  rw [← (inRange_iff_S_narrow (by omega) hW _).mp hin, narrow, hmod]

/-- A container decodes to 1 exactly when its numerator is `2^q`. -/
theorem V_eq_one_iff {td id : Nat} {x : BitVec W} : V td id x = 1 ↔ S td x = 2 ^ (td - id) := by
  rw [V, div_eq_one_iff_eq (by positivity)]
  norm_cast

/-! The product of two decoded values (R132). -/

theorem V_mul_V (td id : Nat) (x y : BitVec W) :
    V td id x * V td id y = ((S td x * S td y : Int) : ℚ) / 2 ^ (td - id) * granularity td id := by
  rw [V, V, granularity, Int.cast_mul]
  ring

theorem granularity_mul_two_pow (td id : Nat) : granularity td id * 2 ^ (td - id) = 1 :=
  one_div_mul_cancel (by positivity)

theorem postMul_eq_floor (p : Int) (q : Nat) : postMul p q = ⌊(p : ℚ) / 2 ^ q⌋ := asr_eq_floor p q

/-- The shift drops nothing exactly for a multiple of `2^q`. -/
theorem fract_div_two_pow_eq_zero_iff (p : Int) (q : Nat) :
    Int.fract ((p : ℚ) / 2 ^ q) = 0 ↔ (2 : Int) ^ q ∣ p := by
  rw [Int.fract_eq_zero_iff]
  constructor
  · rintro ⟨n, hn⟩
    rw [eq_div_iff (by positivity)] at hn
    exact ⟨n, by rw [mul_comm]; exact_mod_cast hn.symm⟩
  · rintro ⟨n, rfl⟩
    refine ⟨n, ?_⟩
    push_cast
    rw [mul_div_cancel_left₀ _ (by positivity)]

/-! What MUL answers (R131). -/

theorem ovfOf_eq_false_iff {td : Nat} {z : Int} : ovfOf td z = false ↔ InRange td z := by
  rw [ovfOf, Bool.not_eq_false', decide_eq_true_iff]

theorem mulExact_eq_postMul (f : Fields W) : mulExact f = postMul (S f.td f.a * S f.td f.b) (f.td - f.id) := rfl

/-- R134: with `id = 1`, the product of two most negative values. -/
theorem mulExact_of_most_negative {f : Fields W} (hid : f.id = 1) (ha : S f.td f.a = -2 ^ (f.td - 1))
    (hb : S f.td f.b = -2 ^ (f.td - 1)) : mulExact f = 2 ^ (f.td - 1) := by
  rw [mulExact_eq_postMul, ha, hb, hid, neg_mul_neg, postMul_mul_two_pow]

/-- With at most one integer digit the value 1, of numerator `2^q`, is above the range. -/
theorem half_le_two_pow_of_id_le_one {td id : Nat} (hid : id ≤ 1) : (2 : Int) ^ (td - 1) ≤ 2 ^ (td - id) :=
  pow_le_pow_right₀ (by decide) (Nat.sub_le_sub_left hid td)

section
variable {f : Fields W} (hv : ValidScheme f)
include hv

theorem mulRsp_of_valid : mulRsp f = answerNarrowed f (mulExact f) := withScheme_of_valid hv _

/-- MUL of any two containers under the Scheme of `f`. -/
theorem mulRsp_with_operands (x y : BitVec W) :
    mulRsp { f with a := x, b := y } = answerNarrowed f (postMul (S f.td x * S f.td y) (f.td - f.id)) :=
  withScheme_of_valid hv _

/-- The source's form of MUL for operands with the sign bit clear. -/
theorem narrow_mulExact_toNat_of_sign_clear (ha : sign f.td f.a = false) (hb : sign f.td f.b = false) :
    (narrow W f.td (mulExact f)).toNat = M f.td f.a * M f.td f.b / 2 ^ (f.td - f.id) % 2 ^ f.td := by
  zify
  rw [narrow_toNat_int hv.2.1, mulExact_eq_postMul, S_of_sign_clear ha, S_of_sign_clear hb, postMul_eq_ediv]

/-- With `id = 0` MUL cannot overflow. -/
theorem mulExact_of_id_zero (hid : f.id = 0) : InRange f.td (mulExact f) ∧ |mulExact f| * 4 ≤ 2 ^ f.td := by
  have ⟨htd, _, _⟩ := hv
  have hquarter : |mulExact f| * 4 ≤ 2 ^ f.td := by
    rw [mulExact_eq_postMul, hid, Nat.sub_zero]
    exact abs_postMul_S_mul_S_le htd f.a f.b
  have hhalf := two_pow_eq_two_mul_half htd
  have hpos : (0 : Int) < 2 ^ (f.td - 1) := by positivity
  have habs : |mulExact f| ≤ 2 ^ (f.td - 1) - 1 := by omega
  obtain ⟨hlow, hhigh⟩ := abs_le.mp habs
  exact ⟨⟨by omega, hhigh⟩, hquarter⟩

/-- R132: without overflow, what MUL loses of the true product is the part of it below a granule. -/
theorem V_mul_V_sub_V_mulRsp (hovf : (mulRsp f).ovf = false) :
    V f.td f.id f.a * V f.td f.id f.b - V f.td f.id (mulRsp f).res
      = Int.fract (((S f.td f.a * S f.td f.b : Int) : ℚ) / 2 ^ (f.td - f.id)) * granularity f.td f.id := by
  rw [mulRsp_of_valid hv] at hovf ⊢
  rw [V_answerNarrowed_of_not_ovf hv _ hovf, V_mul_V, mulExact_eq_postMul, postMul_eq_floor, Int.fract, sub_mul]

/-- R134: with `id = 1` the only product out of range is that of two most negative values. -/
theorem not_inRange_mulExact_iff_of_id_one (hid : f.id = 1) :
    ¬ InRange f.td (mulExact f) ↔ S f.td f.a = -2 ^ (f.td - 1) ∧ S f.td f.b = -2 ^ (f.td - 1) := by
  have ⟨htd, _, _⟩ := hv
  have hexp : f.td - 1 + (f.td - 1) = 2 * f.td - 2 := by omega
  have hlow := (abs_le.mp (abs_S_mul_S_le_scheme htd f.a f.b)).1
  rw [← two_pow_le_S_mul_S_iff htd, mulExact_eq_postMul, hid, inRange_postMul_iff, hexp, not_and_or, not_le, not_lt,
    or_iff_right hlow.not_gt]

/-! The unit (R133). -/

theorem mulRsp_by_unit (hid : 2 ≤ f.id) (x : BitVec W) :
    mulRsp { f with a := x, b := BitVec.ofNat W (2 ^ (f.td - f.id)) } = answerNarrowed f (S f.td x) := by
  have ⟨_, hW, _⟩ := hv
  rw [mulRsp_with_operands hv, S_ofNat_two_pow (by omega) hW, postMul_mul_two_pow]

/-- A unit has to keep the most negative value, which no number below `2^q` does. -/
theorem not_unit_of_id_le_one (hid : f.id ≤ 1) (e : BitVec W) :
    ∃ x : BitVec W, postMul (S f.td x * S f.td e) (f.td - f.id) ≠ S f.td x := by
  have ⟨htd, hW, _⟩ := hv
  have hone : (1 : Int) ≤ 2 ^ (f.td - 1) := one_le_pow₀ (by decide)
  have hmin : S f.td (narrow W f.td (-2 ^ (f.td - 1))) = -2 ^ (f.td - 1) :=
    (inRange_iff_S_narrow htd hW _).mp ⟨le_rfl, by omega⟩
  refine ⟨narrow W f.td (-2 ^ (f.td - 1)), fun hunit => ?_⟩
  rw [hmin] at hunit
  obtain ⟨-, hhigh⟩ := postMul_brackets (-2 ^ (f.td - 1) * S f.td e) (f.td - f.id)
  rw [hunit] at hhigh
  have hkeep : (2 ^ (f.td - 1) - 1) * 2 ^ (f.td - f.id) < 2 ^ (f.td - 1) * S f.td e := by linarith
  have hcontra : 2 ^ (f.td - 1) * S f.td e ≤ (2 ^ (f.td - 1) - 1) * 2 ^ (f.td - f.id) :=
    calc 2 ^ (f.td - 1) * S f.td e
        ≤ 2 ^ (f.td - 1) * (2 ^ (f.td - 1) - 1) := mul_le_mul_of_nonneg_left (S_inRange htd e).2 (by positivity)
      _ = (2 ^ (f.td - 1) - 1) * 2 ^ (f.td - 1) := mul_comm _ _
      _ ≤ (2 ^ (f.td - 1) - 1) * 2 ^ (f.td - f.id) :=
          mul_le_mul_of_nonneg_left (half_le_two_pow_of_id_le_one hid) (by omega)
  exact hkeep.not_ge hcontra

/-- An answer that gives a container back without overflow narrows that container's number. -/
theorem eq_S_of_answerNarrowed {z : Int} {x : BitVec W} (hres : (answerNarrowed f z).res.toNat = M f.td x)
    (hovf : (answerNarrowed f z).ovf = false) : z = S f.td x := by
  have ⟨htd, hW, _⟩ := hv
  have hin : InRange f.td z := ovfOf_eq_false_iff.mp hovf
  refine hin.eq_of_emod_eq htd (S_inRange htd x) ?_
  rw [S_emod, ← narrow_toNat_int hW]
  exact_mod_cast hres

end

theorem exec_mul_of_valid {f : Fields Config.W} (hv : ValidScheme f) (s : State) :
    exec (.mul f) s = .next { s with rsp := answerNarrowed f (mulExact f) } :=
  congrArg (finish · s) (mulRsp_of_valid hv)

/-! The obligations of 43_multiply.md. -/

/-- Settles O37: the shift of the product is the floor of its quotient. -/
theorem mulAnswersTheShiftedProduct : Obligations.MulAnswersTheShiftedProduct := by
  unfold Obligations.MulAnswersTheShiftedProduct
  refine fun f s => ⟨fun hv => ?_, fun hv => exec_of_invalid (i := .mul f) hv s⟩
  refine ⟨_, mulExact f, exec_mul_of_valid hv s, postMul_eq_floor _ _, abs_S_mul_S_le_scheme hv.1 f.a f.b, rfl, rfl,
    rfl, ?outOfRange, narrow_mulExact_toNat_of_sign_clear hv, ?noIntegerBit⟩
  case outOfRange => rw [answerNarrowed_ovf, ovfOf_iff, not_and_or, not_le, not_le]
  case noIntegerBit =>
    intro hid
    obtain ⟨hin, hquarter⟩ := mulExact_of_id_zero hv hid
    exact ⟨ovfOf_eq_false_iff.mpr hin, hquarter⟩

/-- Settles O38: the loss is the fraction the floor drops, at the granularity of the Scheme. -/
theorem mulRoundsDown : Obligations.MulRoundsDown := by
  unfold Obligations.MulRoundsDown
  intro W f hv hovf
  have hpos := granularity_pos f.td f.id
  have hloss := V_mul_V_sub_V_mulRsp hv hovf
  refine ⟨?floor, ?nonneg, ?belowGranule, ?exact⟩
  case floor =>
    rw [mulRsp_of_valid hv] at hovf ⊢
    rw [V_answerNarrowed_of_not_ovf hv _ hovf, V_mul_V, mul_assoc, granularity_mul_two_pow, mul_one,
      ← postMul_eq_floor, ← mulExact_eq_postMul, granularity, mul_one_div]
  case nonneg =>
    rw [hloss]
    exact mul_nonneg (Int.fract_nonneg _) hpos.le
  case belowGranule =>
    rw [hloss]
    exact mul_lt_of_lt_one_left hpos (Int.fract_lt_one _)
  case exact =>
    rw [← fract_div_two_pow_eq_zero_iff, eq_comm, ← sub_eq_zero, hloss, mul_eq_zero, or_iff_left hpos.ne']

/-- Settles O39: the unit is the container of `2^q`, which needs two integer digits; truncating in another order
gives another result. -/
theorem mulSignsAndUnit : Obligations.MulSignsAndUnit := by
  unfold Obligations.MulSignsAndUnit
  refine ⟨fun W f hv => ?_, ?notAssociative⟩
  case notAssociative => exact ⟨⟨false, 0, 8, 6, 1, 1⟩, 16, by decide⟩
  have ⟨htd, hW, hle⟩ := hv
  refine ⟨fun hp => postMul_nonneg hp.le _, fun hp => postMul_le_neg_one hp _, fun hp => ?zero, ?commutative, ?unit,
    ?noUnit⟩
  case zero => rw [mulExact_eq_postMul, hp, postMul_zero_left]
  case commutative => rw [mulRsp_with_operands hv, mul_comm, ← mulExact_eq_postMul, mulRsp_of_valid hv]
  case unit =>
    intro hid
    refine ⟨V_eq_one_iff.mpr (S_ofNat_two_pow (by omega) hW), ?_⟩
    rw [mulRsp_by_unit hv hid f.a]
    exact ⟨narrow_S_toNat hW f.a, ovfOf_eq_false_iff.mpr (S_inRange htd f.a)⟩
  case noUnit =>
    intro hid
    refine ⟨fun x hx => ?_, fun ⟨e, he⟩ => ?_⟩
    · have hhigh := (S_inRange htd x).2
      rw [V_eq_one_iff.mp hx] at hhigh
      have hhalf : (2 : Int) ^ (f.td - 1) ≤ 2 ^ (f.td - f.id) := half_le_two_pow_of_id_le_one hid
      omega
    · obtain ⟨x, hx⟩ := not_unit_of_id_le_one hv hid e
      obtain ⟨hres, hovf⟩ := he x
      rw [mulRsp_with_operands hv] at hres hovf
      exact hx (eq_S_of_answerNarrowed hv hres hovf)

/-- Settles O40: the product of full magnitude is the only one that `id = 1` leaves out of range. -/
theorem mulOverflow : Obligations.MulOverflow := by
  unfold Obligations.MulOverflow
  intro W f hv
  have ⟨htd, hW, _⟩ := hv
  rw [mulRsp_of_valid hv]
  have hovf := ovfOf_iff f.td (mulExact f)
  refine ⟨abs_S_mul_S_le_scheme htd f.a f.b, pow_lt_pow_right₀ (by decide) (by omega), rfl, narrow_toNat_int hW _,
    hovf, fun hid => ?_⟩
  have honly := hovf.trans (not_inRange_mulExact_iff_of_id_one hv hid)
  refine ⟨honly, fun hout => ?_⟩
  obtain ⟨ha, hb⟩ := honly.mp hout
  have hz := mulExact_of_most_negative hid ha hb
  refine ⟨hz, ?_⟩
  zify
  rw [answerNarrowed_res, narrow_toNat_int hW, hz]
  exact Int.emod_eq_of_lt (by positivity) (pow_lt_pow_right₀ (by decide) (by omega))

end Sys2Proof.Machine
end

section
/-! DIV (44_divide.md): the truncated quotient of two containers, as an integer and as a decoded value. -/

namespace Sys2Proof.Machine

variable {W : Nat}

/-! The truncated quotient of two integers (R148, R153). -/

theorem tdiv_eq_sign_mul (n d : Int) : tdiv n d = (n * d).sign * (n.natAbs / d.natAbs : Nat) := by
  rw [tdiv_eq_sign_mul_natAbs, Int.sign_mul]

theorem tdiv_nonneg {n d : Int} (h : 0 ≤ n * d) : 0 ≤ tdiv n d := by
  rw [tdiv_eq_sign_mul]
  exact mul_nonneg (Int.sign_nonneg_iff.mpr h) (Int.natCast_nonneg _)

theorem tdiv_nonpos {n d : Int} (h : n * d ≤ 0) : tdiv n d ≤ 0 := by
  rw [tdiv_eq_sign_mul]
  exact mul_nonpos_of_nonpos_of_nonneg (Int.sign_nonpos_iff.mpr h) (Int.natCast_nonneg _)

theorem tdiv_neg_left (n d : Int) : tdiv (-n) d = -tdiv n d := Int.neg_tdiv n d

theorem tdiv_neg_right (n d : Int) : tdiv n (-d) = -tdiv n d := Int.tdiv_neg n d

theorem natAbs_tdiv (n d : Int) : (tdiv n d).natAbs = n.natAbs / d.natAbs := Int.natAbs_tdiv n d

theorem tdiv_eq_zero_iff {n d : Int} (hd : d ≠ 0) : tdiv n d = 0 ↔ |n| < |d| := by
  rw [← Int.natAbs_eq_zero, natAbs_tdiv, Nat.div_eq_zero_iff_lt (Int.natAbs_pos.mpr hd), Int.abs_eq_natAbs,
    Int.abs_eq_natAbs, Nat.cast_lt]

/-- Of the divisors only 1 and -1 keep the magnitude of a nonzero dividend, and 1 keeps its sign. -/
theorem tdiv_eq_neg_iff {n d : Int} (hn : n ≠ 0) : tdiv n d = -n ↔ d = -1 := by
  constructor
  · intro h
    have hmag : n.natAbs / d.natAbs = n.natAbs := by rw [← natAbs_tdiv, h, Int.natAbs_neg]
    have hunit : d.natAbs = 1 := (Nat.div_eq_self.mp hmag).resolve_left (Int.natAbs_ne_zero.mpr hn)
    rcases Int.isUnit_iff.mp (Int.isUnit_iff_natAbs_eq.mpr hunit) with rfl | rfl
    · have hself : tdiv n 1 = n := Int.tdiv_one n
      omega
    · rfl
  · rintro rfl
    rw [tdiv_neg_right, tdiv, Int.tdiv_one]

/-- Rounding toward zero rounds the magnitude down. -/
theorem abs_tdiv_eq_floor (n d : Int) : |tdiv n d| = ⌊|(n : ℚ) / d|⌋ := by
  rw [abs_div, ← Int.cast_abs (a := d), floor_abs_div_abs, Int.abs_eq_natAbs, natAbs_tdiv]

theorem abs_tdiv_le_abs_div (n d : Int) : |(tdiv n d : ℚ)| ≤ |(n : ℚ) / d| := by
  rw [← Int.cast_abs, abs_tdiv_eq_floor]
  exact Int.floor_le _

theorem abs_div_sub_abs_tdiv_lt_one (n d : Int) : |(n : ℚ) / d| - |(tdiv n d : ℚ)| < 1 := by
  rw [← Int.cast_abs, abs_tdiv_eq_floor, sub_lt_iff_lt_add']
  exact Int.lt_floor_add_one _

theorem tdiv_mul_div_nonneg (n d : Int) : 0 ≤ (tdiv n d : ℚ) * ((n : ℚ) / d) := by
  rcases le_total 0 (n * d) with h | h
  · have hquot : (0 : ℚ) ≤ n / d := div_nonneg_iff.mpr (by exact_mod_cast mul_nonneg_iff.mp h)
    exact mul_nonneg (by exact_mod_cast tdiv_nonneg h) hquot
  · have hquot : (n : ℚ) / d ≤ 0 := div_nonpos_iff.mpr (by exact_mod_cast mul_nonpos_iff.mp h)
    exact mul_nonneg_of_nonpos_of_nonpos (by exact_mod_cast tdiv_nonpos h) hquot

/-- R152: scaling before the division keeps at least what scaling after it keeps. -/
theorem abs_tdiv_mul_two_pow_le (n d : Int) (j : Nat) : |tdiv n d| * 2 ^ j ≤ |tdiv (n * 2 ^ j) d| := by
  rw [abs_tdiv_eq_floor (n * 2 ^ j), Int.le_floor]
  push_cast
  rw [mul_div_right_comm, abs_mul, abs_of_pos (by positivity : (0 : ℚ) < 2 ^ j)]
  exact mul_le_mul_of_nonneg_right (abs_tdiv_le_abs_div n d) (by positivity)

/-! The adjusted integer of DIV (R146). -/

theorem divExact_eq_tdiv_mul (f : Fields W) (k : Nat) :
    divExact f k = tdiv (S f.td f.a * 2 ^ k) (S f.td f.b) * 2 ^ (f.td - f.id - k) := rfl

theorem divExact_of_full_preScale (f : Fields W) :
    divExact f (f.td - f.id) = tdiv (S f.td f.a * 2 ^ (f.td - f.id)) (S f.td f.b) :=
  divExact_of_fractionDigits_le le_rfl

theorem abs_divExact (f : Fields W) (k : Nat) :
    |divExact f k| = |tdiv (S f.td f.a * 2 ^ k) (S f.td f.b)| * 2 ^ (f.td - f.id - k) := abs_shl _ _

theorem divExact_nonneg {f : Fields W} (h : 0 ≤ S f.td f.a * S f.td f.b) (k : Nat) : 0 ≤ divExact f k := by
  have hscaled : 0 ≤ S f.td f.a * 2 ^ k * S f.td f.b := by
    rw [mul_right_comm]
    exact mul_nonneg h (by positivity)
  exact mul_nonneg (tdiv_nonneg hscaled) (by positivity)

theorem divExact_nonpos {f : Fields W} (h : S f.td f.a * S f.td f.b ≤ 0) (k : Nat) : divExact f k ≤ 0 := by
  have hscaled : S f.td f.a * 2 ^ k * S f.td f.b ≤ 0 := by
    rw [mul_right_comm]
    exact mul_nonpos_of_nonpos_of_nonneg h (by positivity)
  exact mul_nonpos_of_nonpos_of_nonneg (tdiv_nonpos hscaled) (by positivity)

/-- The sign of the adjusted integer does not depend on the pre-scale. -/
theorem divExact_mul_divExact_nonneg (f : Fields W) (j k : Nat) : 0 ≤ divExact f j * divExact f k := by
  rcases le_total 0 (S f.td f.a * S f.td f.b) with h | h
  · exact mul_nonneg (divExact_nonneg h j) (divExact_nonneg h k)
  · exact mul_nonneg_of_nonpos_of_nonpos (divExact_nonpos h j) (divExact_nonpos h k)

theorem abs_divExact_mono {f : Fields W} {j k : Nat} (hjk : j ≤ k) (hk : k ≤ f.td - f.id) :
    |divExact f j| ≤ |divExact f k| := by
  obtain ⟨m, rfl⟩ := Nat.exists_eq_add_of_le hjk
  have hshift : f.td - f.id - j = m + (f.td - f.id - (j + m)) := by omega
  rw [abs_divExact, abs_divExact, hshift, pow_add, ← mul_assoc, pow_add, ← mul_assoc]
  exact mul_le_mul_of_nonneg_right (abs_tdiv_mul_two_pow_le _ _ m) (by positivity)

theorem abs_divExact_le_abs_div {f : Fields W} {k : Nat} (hk : k ≤ f.td - f.id) :
    |(divExact f k : ℚ)| ≤ |(S f.td f.a : ℚ) * 2 ^ (f.td - f.id) / S f.td f.b| := by
  have hfull := abs_divExact_mono hk le_rfl
  have hquot := abs_tdiv_le_abs_div (S f.td f.a * 2 ^ (f.td - f.id)) (S f.td f.b)
  rw [← divExact_of_full_preScale] at hquot
  push_cast at hquot
  exact le_trans (by exact_mod_cast hfull) hquot

/-- A dividend whose container is replaced by that of its negative. -/
theorem divExact_neg_dividend {f : Fields W} {x : BitVec W} (hx : S f.td x = -S f.td f.a) (k : Nat) :
    divExact { f with a := x } k = -divExact f k := by
  rw [divExact_eq_tdiv_mul, divExact_eq_tdiv_mul, hx, neg_mul, tdiv_neg_left, neg_mul]

theorem divExact_neg_divisor {f : Fields W} {x : BitVec W} (hx : S f.td x = -S f.td f.b) (k : Nat) :
    divExact { f with b := x } k = -divExact f k := by
  rw [divExact_eq_tdiv_mul, divExact_eq_tdiv_mul, hx, tdiv_neg_right, neg_mul]

/-- R105, R153: the containers of `td` bits are closed under negation but for the most negative value. -/
theorem exists_S_eq_neg_iff {td : Nat} (h : 1 ≤ td) (hW : td ≤ W) (x : BitVec W) :
    (∃ y : BitVec W, S td y = -S td x) ↔ S td x ≠ -2 ^ (td - 1) := by
  constructor
  · rintro ⟨y, hy⟩ hmin
    have hhigh := (S_inRange h y).2
    omega
  · exact fun hx => ⟨narrow W td (-S td x), S_narrow_neg h hW hx⟩

/-- R154: an integer quotient is out of range only as the negative of the most negative value. -/
theorem not_inRange_tdiv_S_iff {td : Nat} (h : 1 ≤ td) (x y : BitVec W) :
    ¬ InRange td (tdiv (S td x) (S td y)) ↔ S td x = -2 ^ (td - 1) ∧ S td y = -1 := by
  have hpos : (0 : Int) < 2 ^ (td - 1) := by positivity
  obtain ⟨hlow, hhigh⟩ := S_inRange h x
  constructor
  · intro hout
    obtain ⟨hzlow, hzhigh⟩ := abs_le.mp (abs_tdiv_le (S td x) (S td y))
    have habs := (S_inRange h x).abs_le_half
    have hfull : 2 ^ (td - 1) ≤ |S td x| := by omega
    have hmin : S td x = -2 ^ (td - 1) := by
      rcases le_abs'.mp hfull with hneg | hpos <;> omega
    have hneg : tdiv (S td x) (S td y) = -S td x := by omega
    exact ⟨hmin, (tdiv_eq_neg_iff (by omega)).mp hneg⟩
  · rintro ⟨hx, hy⟩ ⟨-, hzhigh⟩
    rw [(tdiv_eq_neg_iff (by omega)).mpr hy, hx] at hzhigh
    omega

/-! A container that decodes to zero (R150). -/

theorem M_eq_zero_iff_getLsbD (td : Nat) (x : BitVec W) : M td x = 0 ↔ ∀ j, j < td → x.getLsbD j = false := by
  constructor
  · intro hM j hj
    rw [← testBit_M hj, hM, Nat.zero_testBit]
  · intro hclear
    refine Nat.eq_of_testBit_eq fun j => ?_
    rw [Nat.zero_testBit]
    rcases Nat.lt_or_ge j td with hj | hj
    · rw [testBit_M hj, hclear j hj]
    · exact Nat.testBit_lt_two_pow ((M_lt td x).trans_le (Nat.pow_le_pow_right (by decide) hj))

theorem V_eq_zero_iff (td id : Nat) (x : BitVec W) : V td id x = 0 ↔ S td x = 0 := by
  rw [V, div_eq_zero_iff, or_iff_left (by positivity), Int.cast_eq_zero]

/-! What DIV answers (R146, R147, R149, R150). -/

/-- R147: a precision that is given is the pre-scale. -/
theorem kEff_of_ke_true {f : Fields W} (h : f.ke = true) : kEff f = f.k := if_pos h

theorem exec_div (f : Fields Config.W) (s : State) : exec (.div f) s = .next { s with rsp := divRsp f } := rfl

section
variable {f : Fields W} (hv : ValidScheme f)
include hv

theorem divRsp_of_zero_divisor (hb : M f.td f.b = 0) : divRsp f = raise .divisionByZero :=
  (withScheme_of_valid hv _).trans (if_pos hb)

theorem divRsp_of_precision_above (hb : M f.td f.b ≠ 0) (hk : f.td - f.id < kEff f) :
    divRsp f = raise .invalidPrecision :=
  (withScheme_of_valid hv _).trans ((if_neg hb).trans (if_pos hk))

theorem divRsp_of_legal (hb : M f.td f.b ≠ 0) (hk : kEff f ≤ f.td - f.id) :
    divRsp f = answerNarrowed f (divExact f (kEff f)) :=
  (withScheme_of_valid hv _).trans ((if_neg hb).trans (if_neg hk.not_gt))

end

theorem status_divRsp_eq_divisionByZero {f : Fields W} (h : (divRsp f).status = .divisionByZero) :
    M f.td f.b = 0 := by
  rcases divRsp_cases f with ⟨-, hr⟩ | ⟨-, hb, -⟩ | ⟨-, -, -, hr⟩ | ⟨-, -, -, hr⟩
  case inr.inl => exact hb
  all_goals
    rw [hr] at h
    cases h

/-! The answer of DIV as a decoded value (R151). -/

/-- A number is as far from one between it and zero as their magnitudes are apart. -/
theorem abs_sub_of_mul_nonneg {x y : ℚ} (hsign : 0 ≤ y * x) (hle : |y| ≤ |x|) : |x - y| = |x| - |y| := by
  rcases mul_nonneg_iff.mp hsign with ⟨hy, hx⟩ | ⟨hy, hx⟩
  · rw [abs_of_nonneg hx, abs_of_nonneg hy] at hle ⊢
    exact abs_of_nonneg (sub_nonneg.mpr hle)
  · rw [abs_of_nonpos hx, abs_of_nonpos hy] at hle ⊢
    rw [abs_of_nonpos (by linarith)]
    ring

theorem V_div_V (td id : Nat) (x y : BitVec W) : V td id x / V td id y = (S td x : ℚ) / S td y :=
  div_div_div_cancel_right₀ (by positivity) _ _

/-- The true quotient is that of the pre-scaled dividend, scaled back. -/
theorem V_div_V_eq_scaled (td id k : Nat) (x y : BitVec W) :
    V td id x / V td id y = ((S td x * 2 ^ k : Int) : ℚ) / S td y / 2 ^ k := by
  rw [V_div_V]
  push_cast
  rw [mul_div_right_comm, mul_div_cancel_right₀ _ (by positivity)]

section
variable {f : Fields W} (hv : ValidScheme f) (hb : M f.td f.b ≠ 0) (hk : kEff f ≤ f.td - f.id)
  (hovf : (divRsp f).ovf = false)
include hv hb hk hovf

theorem V_divRsp_eq_divExact : V f.td f.id (divRsp f).res = divExact f (kEff f) * granularity f.td f.id := by
  rw [divRsp_of_legal hv hb hk] at hovf ⊢
  exact V_answerNarrowed_of_not_ovf hv _ hovf

theorem V_divRsp_eq_tdiv : V f.td f.id (divRsp f).res
    = (tdiv (S f.td f.a * 2 ^ kEff f) (S f.td f.b) : ℚ) / 2 ^ kEff f := by
  have hpow : (2 : ℚ) ^ (f.td - f.id) = 2 ^ (f.td - f.id - kEff f) * 2 ^ kEff f := by
    rw [← pow_add, Nat.sub_add_cancel hk]
  rw [V_divRsp_eq_divExact hv hb hk hovf, divExact_eq_tdiv_mul, granularity, hpow]
  push_cast
  field_simp

theorem V_divRsp_mul_nonneg : 0 ≤ V f.td f.id (divRsp f).res * (V f.td f.id f.a / V f.td f.id f.b) := by
  rw [V_divRsp_eq_tdiv hv hb hk hovf, V_div_V_eq_scaled _ _ (kEff f), div_mul_div_comm]
  exact div_nonneg (tdiv_mul_div_nonneg _ _) (by positivity)

theorem abs_V_divRsp_le : |V f.td f.id (divRsp f).res| ≤ |V f.td f.id f.a / V f.td f.id f.b| := by
  rw [V_divRsp_eq_tdiv hv hb hk hovf, V_div_V_eq_scaled _ _ (kEff f), abs_div, abs_div _ (2 ^ kEff f)]
  exact div_le_div_of_nonneg_right (abs_tdiv_le_abs_div _ _) (abs_nonneg _)

theorem abs_V_div_V_sub_abs_V_divRsp_lt :
    |V f.td f.id f.a / V f.td f.id f.b| - |V f.td f.id (divRsp f).res| < 1 / 2 ^ kEff f := by
  rw [V_divRsp_eq_tdiv hv hb hk hovf, V_div_V_eq_scaled _ _ (kEff f), abs_div, abs_div _ (2 ^ kEff f), ← sub_div,
    abs_of_pos (by positivity : (0 : ℚ) < 2 ^ kEff f)]
  exact div_lt_div_of_pos_right (abs_div_sub_abs_tdiv_lt_one _ _) (by positivity)

theorem abs_V_div_V_sub_V_divRsp : |V f.td f.id f.a / V f.td f.id f.b - V f.td f.id (divRsp f).res|
    = |V f.td f.id f.a / V f.td f.id f.b| - |(divExact f (kEff f) : ℚ)| * granularity f.td f.id := by
  rw [abs_sub_of_mul_nonneg (V_divRsp_mul_nonneg hv hb hk hovf) (abs_V_divRsp_le hv hb hk hovf),
    V_divRsp_eq_divExact hv hb hk hovf, abs_mul, abs_of_pos (granularity_pos f.td f.id)]

end

/-! The obligations of 44_divide.md. -/

/-- Settles O41, by the equation of DIV in each of its four cases. -/
theorem divAnswersTheAlignedQuotient : Obligations.DivAnswersTheAlignedQuotient := by
  unfold Obligations.DivAnswersTheAlignedQuotient
  refine fun f s => ⟨fun hv => exec_of_invalid (i := .div f) hv s, fun hv hb => ?zero, fun hv hb k hke => ?nonzero⟩
  case zero => rw [exec_div, divRsp_of_zero_divisor hv hb, raise]
  case nonzero =>
    obtain rfl : k = kEff f := hke
    refine ⟨fun hk => ?above, fun hk => ⟨_, _, exec_div f s, divExact_eq_tdiv_mul f (kEff f), ?legal⟩⟩
    case above => rw [exec_div, divRsp_of_precision_above hv hb hk, raise]
    case legal =>
      rw [divRsp_of_legal hv hb hk]
      refine ⟨rfl, rfl, rfl, ?_⟩
      rw [answerNarrowed_ovf, ovfOf_iff, not_and_or, not_le, not_le]

/-- Settles O45: `M`, `S`, `V` and the low `td` bits are zero together. -/
theorem divisionByZeroExactly : Obligations.DivisionByZeroExactly := by
  unfold Obligations.DivisionByZeroExactly
  intro W f hv
  have hS := (S_eq_zero_iff hv.1 f.b).symm
  exact ⟨divRsp_of_zero_divisor hv, status_divRsp_eq_divisionByZero, hS, hS.trans (V_eq_zero_iff _ _ _).symm,
    M_eq_zero_iff_getLsbD _ _⟩

/-- Settles O46: the value of the answer is the truncated quotient of the pre-scaled dividend, scaled back. -/
theorem divTruncatesTowardZero : Obligations.DivTruncatesTowardZero := by
  unfold Obligations.DivTruncatesTowardZero
  rintro W f _ hv hb rfl hk hovf
  exact ⟨V_divRsp_eq_tdiv hv hb hk hovf, V_div_V _ _ _ _, V_divRsp_mul_nonneg hv hb hk hovf,
    abs_V_divRsp_le hv hb hk hovf, abs_V_div_V_sub_abs_V_divRsp_lt hv hb hk hovf⟩

/-- Settles O47: the error is what the magnitude of the adjusted integer leaves of that of the true quotient,
and that magnitude grows with the pre-scale. -/
theorem morePreScaleIsNeverWorse : Obligations.MorePreScaleIsNeverWorse := by
  unfold Obligations.MorePreScaleIsNeverWorse
  intro W f k1 k2 hv hb hle hk2
  have hmono := abs_divExact_mono hle hk2
  refine ⟨divExact_mul_divExact_nonneg f k1 k2, hmono, abs_divExact_le_abs_div hk2, fun hovf1 hovf2 => ?error⟩
  case error =>
    have herror1 := abs_V_div_V_sub_V_divRsp (f := { f with ke := true, k := k1 }) hv hb (hle.trans hk2) hovf1
    have herror2 := abs_V_div_V_sub_V_divRsp (f := { f with ke := true, k := k2 }) hv hb hk2 hovf2
    refine herror2.trans_le (le_trans ?_ herror1.ge)
    have hmonoQ : |(divExact f k1 : ℚ)| ≤ |(divExact f k2 : ℚ)| := by exact_mod_cast hmono
    exact sub_le_sub_left (mul_le_mul_of_nonneg_right hmonoQ (granularity_pos f.td f.id).le) _

/-- Settles O48: the truncated quotient is odd in each operand. -/
theorem divSigns : Obligations.DivSigns := by
  unfold Obligations.DivSigns
  refine ⟨fun n d hd => ?integers, fun W f x y k _ _ _ => ⟨?dividend, ?divisor, ?both⟩, ?containers⟩
  case integers =>
    exact ⟨tdiv_nonneg, tdiv_nonpos, tdiv_eq_zero_iff hd, tdiv_neg_left n d, tdiv_neg_right n d⟩
  case dividend => exact fun hx => divExact_neg_dividend hx k
  case divisor => exact fun hy => divExact_neg_divisor hy k
  case both =>
    intro hx hy
    have hboth := divExact_neg_divisor (f := { f with a := x }) hy k
    rw [hboth, divExact_neg_dividend hx, neg_neg]
  case containers => exact fun W td x htd hW => exists_S_eq_neg_iff htd hW x

/-- Settles O49: with `q = 0` the adjusted integer is the quotient of the two containers themselves. -/
theorem quotientOverflow : Obligations.QuotientOverflow := by
  unfold Obligations.QuotientOverflow
  intro W f hv hb hk
  rw [divRsp_of_legal hv hb hk]
  have hovf := ovfOf_iff f.td (divExact f (kEff f))
  refine ⟨rfl, rfl, hovf, fun hid => hovf.trans ?integer⟩
  case integer =>
    have hq : f.td - f.id = 0 := by omega
    have hzero : kEff f = 0 := by omega
    rw [divExact_eq_tdiv_mul, hq, hzero, pow_zero, mul_one, mul_one]
    exact not_inRange_tdiv_S_iff hv.1 f.a f.b

/-- Settles O42: one of the two shifts is by 0 places; under `(8, 6)`, `4.75 / 3.25` tells the formulas apart. -/
theorem sourceFormulasAreInstances : Obligations.SourceFormulasAreInstances := by
  unfold Obligations.SourceFormulasAreInstances
  refine ⟨fun W f => ⟨?noPreScale, divExact_of_full_preScale f⟩,
    ⟨false, 0, 8, 6, 19, 13⟩, by decide, by decide, by decide, V_eq_one_iff.mpr (by decide), ?quarter⟩
  case noPreScale => rw [divExact_eq_tdiv_mul, pow_zero, mul_one, Nat.sub_zero]
  case quarter =>
    have hS : S 8 (narrow Config.W 8 5) = 5 := by decide
    rw [V, hS]
    norm_num

/-- Settles O43: the effective pre-scale is read off `ke`, and DIV reads `ke` and `k` through it only. -/
theorem omittedPrecisionIsFull : Obligations.OmittedPrecisionIsFull := by
  unfold Obligations.OmittedPrecisionIsFull
  refine fun W f => ⟨kEff_of_ke_true, fun hv hke => ?full, rfl⟩
  case full =>
    rw [kEff_of_ke_false hke]
    exact Nat.sub_add_cancel hv.2.2

/-- Settles O44: past the Scheme and the divisor, the effective pre-scale alone decides the status. -/
theorem precisionAboveFractionDigitsFails : Obligations.PrecisionAboveFractionDigitsFails := by
  unfold Obligations.PrecisionAboveFractionDigitsFails
  intro W f hv hb
  have hstatus : kEff f ≤ f.td - f.id → (divRsp f).status = .ok := fun hk => by
    rw [divRsp_of_legal hv hb hk]
    rfl
  refine ⟨fun hke hk => ?above, fun hke => hstatus (kEff_of_ke_false hke).le, fun hke hk => ?upTo⟩
  case above => exact divRsp_of_precision_above hv hb (hk.trans_eq (kEff_of_ke_true hke).symm)
  case upTo => exact hstatus ((kEff_of_ke_true hke).trans_le hk)

end Sys2Proof.Machine
end

section
/-! Which status a command gets, and what a failing command leaves as it was (60_exceptions.md). -/

namespace Sys2Proof.Machine

variable {W : Nat}

/-- R166 to R169, R171: when a command gets a status, written so that an error's condition rules out the
errors before it. -/
def StatusCondition (op : BitVec 3) (f : Fields W) : Status → Prop
  | .illegalOp => 6 ≤ op.toNat
  | .invalidScheme => op.toNat < 6 ∧ (f.td = 0 ∨ W < f.td ∨ f.td < f.id)
  | .divisionByZero => op = 5 ∧ ValidScheme f ∧ M f.td f.b = 0
  | .invalidPrecision => op = 5 ∧ ValidScheme f ∧ M f.td f.b ≠ 0 ∧ f.ke = true ∧ f.td - f.id < f.k
  | .ok => op.toNat < 6 ∧ ValidScheme f ∧ (op = 5 → M f.td f.b ≠ 0 ∧ kEff f ≤ f.td - f.id)

theorem not_validScheme_iff (f : Fields W) : ¬ ValidScheme f ↔ f.td = 0 ∨ W < f.td ∨ f.td < f.id := by
  rw [ValidScheme]
  omega

/-- R168: only a precision that is given can exceed the fraction digits. -/
theorem fractionDigits_lt_kEff_iff (f : Fields W) :
    f.td - f.id < kEff f ↔ f.ke = true ∧ f.td - f.id < f.k := by
  cases hke : f.ke
  · rw [kEff_of_ke_false hke]
    exact iff_of_false (lt_irrefl _) nofun
  · rw [kEff_of_ke_true hke]
    exact (and_iff_right rfl).symm

/-- A command whose Scheme is valid succeeds, where DIV also has a divisor and a precision it can use. -/
theorem transact_status_eq_ok {op : BitVec 3} {f : Fields W} (hop : op.toNat < 6) (hv : ValidScheme f)
    (hdiv : op = 5 → M f.td f.b ≠ 0 ∧ kEff f ≤ f.td - f.id) : (transact op f).status = .ok := by
  rcases opcode_cases op with rfl | rfl | rfl | rfl | rfl | rfl | hreserved
  case inr.inr.inr.inr.inr.inl =>
    obtain ⟨hb, hk⟩ := hdiv rfl
    exact congrArg Response.status (divRsp_of_legal hv hb hk)
  case inr.inr.inr.inr.inr.inr => omega
  all_goals exact congrArg Response.status (withScheme_of_valid hv _)

theorem StatusCondition.transact_status {op : BitVec 3} {f : Fields W} {e : Status}
    (h : StatusCondition op f e) : (transact op f).status = e := by
  cases e with
  | illegalOp => exact congrArg Response.status (transact_reserved h f)
  | invalidScheme =>
    obtain ⟨hop, hinvalid⟩ := h
    exact congrArg Response.status (transact_of_invalid hop ((not_validScheme_iff f).mpr hinvalid))
  | divisionByZero =>
    obtain ⟨rfl, hv, hb⟩ := h
    exact congrArg Response.status (divRsp_of_zero_divisor hv hb)
  | invalidPrecision =>
    obtain ⟨rfl, hv, hb, hk⟩ := h
    exact congrArg Response.status (divRsp_of_precision_above hv hb ((fractionDigits_lt_kEff_iff f).mpr hk))
  | ok =>
    obtain ⟨hop, hv, hdiv⟩ := h
    exact transact_status_eq_ok hop hv hdiv

/-- R171: the tests in their order, each made only when those before it passed. -/
theorem exists_statusCondition (op : BitVec 3) (f : Fields W) : ∃ e, StatusCondition op f e := by
  by_cases hop : 6 ≤ op.toNat
  · exact ⟨.illegalOp, hop⟩
  replace hop := Nat.lt_of_not_le hop
  by_cases hv : ValidScheme f
  swap
  · exact ⟨.invalidScheme, hop, (not_validScheme_iff f).mp hv⟩
  by_cases hdiv : op = 5
  swap
  · exact ⟨.ok, hop, hv, fun h => absurd h hdiv⟩
  by_cases hb : M f.td f.b = 0
  · exact ⟨.divisionByZero, hdiv, hv, hb⟩
  by_cases hk : f.td - f.id < kEff f
  · exact ⟨.invalidPrecision, hdiv, hv, hb, (fractionDigits_lt_kEff_iff f).mp hk⟩
  · exact ⟨.ok, hop, hv, fun _ => ⟨hb, Nat.le_of_not_lt hk⟩⟩

/-- One condition always holds, and a condition that holds gives the status: so the status gives back its
condition. -/
theorem transact_status_eq_iff (op : BitVec 3) (f : Fields W) (e : Status) :
    (transact op f).status = e ↔ StatusCondition op f e := by
  refine ⟨?_, StatusCondition.transact_status⟩
  rintro rfl
  obtain ⟨e, he⟩ := exists_statusCondition op f
  rwa [he.transact_status]

/-- Settles O16: each clause is the condition of its status; an error is legal, so its other fields are zero. -/
theorem statusOfEveryCommand : Obligations.StatusOfEveryCommand := by
  unfold Obligations.StatusOfEveryCommand
  refine ⟨fun W op f => ?status, ?codes, rfl, rfl, rfl, rfl, rfl⟩
  case status =>
    have hiff := transact_status_eq_iff op f
    exact ⟨hiff .illegalOp, hiff .invalidScheme, hiff .divisionByZero, hiff .invalidPrecision,
      (transact_legal op f).1⟩
  case codes =>
    intro e
    cases e <;> decide

/-- Settles O17: every operation drives one legal response, which is the same in every state. -/
theorem errorsHaveNoPartialEffect : Obligations.ErrorsHaveNoPartialEffect := by
  unfold Obligations.ErrorsHaveNoPartialEffect
  intro i s t h hfails
  obtain rfl := exec_next h
  obtain ⟨hzero, -⟩ := transact_legal i.op i.fields
  exact ⟨congrArg (s.respond ·) (hzero hfails), exec_eq_next i⟩

end Sys2Proof.Machine
end

section
/-! An implementation with latency (70_reset_and_hazards.md R185, R188). Every lemma speaks of one caller:
what it has received and what it waits for, after an event and along a history. -/

namespace Sys2Proof.Machine

/-! What an event does to what a caller has received and to what it waits for. -/

@[simp] theorem received_empty (c : Nat) : Link.empty.received c = [] := rfl

@[simp] theorem waiting_empty (c : Nat) : Link.empty.waiting c = [] := rfl

@[simp] theorem received_after_accept (l : Link) (c d : Nat) (w : CmdWord) :
    (l.after (.accept d w)).received c = l.received c := rfl

@[simp] theorem accepted_accept (c d : Nat) (w : CmdWord) :
    accepted c [.accept d w] = if d = c then [w] else [] := by
  by_cases h : d = c <;> simp [accepted, h]

@[simp] theorem accepted_answer (c d : Nat) : accepted c [.answer d] = [] := rfl

theorem accepted_cons (c : Nat) (e : LinkEvent) (es : List LinkEvent) :
    accepted c (e :: es) = accepted c [e] ++ accepted c es :=
  List.filterMap_append (l := [e])

@[simp] theorem waiting_after_accept (l : Link) (c d : Nat) (w : CmdWord) :
    (l.after (.accept d w)).waiting c = l.waiting c ++ accepted c [.accept d w] := by
  by_cases h : d = c <;> simp [Link.after, Link.waiting, h]

/-- An answer event finds nothing in flight for its caller and changes nothing, or it takes the caller's oldest
command out of the queue and delivers the answer to it. -/
theorem after_answer_cases (l : Link) (d : Nat) :
    (l.waiting d = [] ∧ l.after (.answer d) = l) ∨
    ∃ pre w post, (∀ y ∈ pre, y.caller ≠ d) ∧ l.queue = pre ++ ⟨d, w⟩ :: post ∧
      l.after (.answer d) = ⟨pre ++ post, l.delivered ++ [⟨d, answerTo w⟩]⟩ := by
  cases h : takeFirst d l.queue with
  | none =>
    refine .inl ⟨?_, by simp [Link.after, h]⟩
    simpa [Link.waiting] using takeFirst_none h
  | some p =>
    obtain ⟨⟨_, w⟩, rest⟩ := p
    obtain ⟨pre, post, hqueue, rfl, rfl, hpre⟩ := takeFirst_some h
    exact .inr ⟨pre, w, post, hpre, hqueue, by simp [Link.after, h]⟩

/-- The caller's oldest command, if it has one in flight, moves from what it waits for to what it has received. -/
theorem after_answer_self (l : Link) (c : Nat) :
    (l.after (.answer c)).received c = l.received c ++ ((l.waiting c).take 1).map answerTo ∧
    (l.after (.answer c)).waiting c = (l.waiting c).drop 1 := by
  obtain ⟨hwait, hafter⟩ | ⟨pre, w, post, hpre, hqueue, hafter⟩ := after_answer_cases l c
  · simp [hafter, hwait]
  · have hnone : pre.filter (fun x => x.caller = c) = [] := by simpa using hpre
    have hwait : l.waiting c = w :: (l.after (.answer c)).waiting c := by
      simp [Link.waiting, hafter, hqueue, hnone]
    refine ⟨?_, by rw [hwait, List.drop_one, List.tail_cons]⟩
    rw [hwait]
    simp [Link.received, hafter]

theorem after_answer_of_ne (l : Link) {c d : Nat} (h : d ≠ c) :
    (l.after (.answer d)).received c = l.received c ∧
    (l.after (.answer d)).waiting c = l.waiting c := by
  obtain ⟨-, hafter⟩ | ⟨pre, w, post, -, hqueue, hafter⟩ := after_answer_cases l d
  · simp [hafter]
  · simp [Link.received, Link.waiting, hafter, hqueue, h]

/-! Histories. -/

@[simp] theorem run_nil (l : Link) : l.run [] = l := rfl

@[simp] theorem run_cons (e : LinkEvent) (es : List LinkEvent) (l : Link) :
    l.run (e :: es) = (l.after e).run es := rfl

theorem run_append (es fs : List LinkEvent) (l : Link) : l.run (es ++ fs) = (l.run es).run fs :=
  List.foldl_append

/-! Conservation (R188). -/

/-- The responses a caller has received, followed by those it is owed: the answers to its commands in flight. -/
def Link.receivedOrOwed (l : Link) (c : Nat) : List (Response Config.W) :=
  l.received c ++ (l.waiting c).map answerTo

theorem receivedOrOwed_after (l : Link) (c : Nat) {e : LinkEvent} (he : e ≠ .reset) :
    (l.after e).receivedOrOwed c = l.receivedOrOwed c ++ (accepted c [e]).map answerTo := by
  unfold Link.receivedOrOwed
  cases e with
  | accept d w => rw [received_after_accept, waiting_after_accept, List.map_append, List.append_assoc]
  | answer d =>
    rw [accepted_answer, List.map_nil, List.append_nil]
    by_cases hd : d = c
    · subst hd
      obtain ⟨hreceived, hwaiting⟩ := after_answer_self l d
      rw [hreceived, hwaiting, List.append_assoc, ← List.map_append, List.take_append_drop]
    · obtain ⟨hreceived, hwaiting⟩ := after_answer_of_ne l hd
      rw [hreceived, hwaiting]
  | reset => exact absurd rfl he

theorem receivedOrOwed_run (l : Link) (c : Nat) {es : List LinkEvent} (hes : .reset ∉ es) :
    (l.run es).receivedOrOwed c = l.receivedOrOwed c ++ (accepted c es).map answerTo := by
  induction es generalizing l with
  | nil => exact (List.append_nil _).symm
  | cons e es ih =>
    obtain ⟨he, hes⟩ := List.ne_and_not_mem_of_not_mem_cons hes
    rw [run_cons, ih _ hes, receivedOrOwed_after l c he.symm, accepted_cons c e es, List.map_append,
      List.append_assoc]

/-! A reset (R185): the link is as from power-up, but for what it had delivered. -/

/-- The link with older deliveries put before its own. -/
def Link.withEarlier (ds : List Delivery) (l : Link) : Link := { l with delivered := ds ++ l.delivered }

@[simp] theorem waiting_withEarlier (ds : List Delivery) (l : Link) (c : Nat) :
    (l.withEarlier ds).waiting c = l.waiting c := rfl

theorem received_withEarlier (l m : Link) (c : Nat) :
    (m.withEarlier l.delivered).received c = l.received c ++ m.received c := by
  simp [Link.received, Link.withEarlier]

theorem after_reset (l : Link) : l.after .reset = Link.empty.withEarlier l.delivered := by
  simp [Link.after, Link.withEarlier, Link.empty]

/-- What was delivered earlier has no part in what an event does. -/
theorem after_withEarlier (ds : List Delivery) (l : Link) (e : LinkEvent) :
    (l.withEarlier ds).after e = (l.after e).withEarlier ds := by
  cases e with
  | accept => rfl
  | answer d => cases h : takeFirst d l.queue <;> simp [Link.after, Link.withEarlier, h]
  | reset => rfl

theorem run_withEarlier (ds : List Delivery) (l : Link) (es : List LinkEvent) :
    (l.withEarlier ds).run es = (l.run es).withEarlier ds := by
  induction es generalizing l with
  | nil => rfl
  | cons e es ih => rw [run_cons, after_withEarlier, ih, run_cons]

theorem run_append_reset (es fs : List LinkEvent) (l : Link) :
    l.run (es ++ .reset :: fs) = (Link.empty.run fs).withEarlier (l.run es).delivered := by
  rw [run_append, run_cons, after_reset, run_withEarlier]

theorem received_accept_answer (c : Nat) (w : CmdWord) :
    (Link.empty.run [.accept c w, .answer c]).received c = [answerTo w] := by
  obtain ⟨hreceived, -⟩ := after_answer_self (Link.empty.after (.accept c w)) c
  simpa using hreceived

/-! The obligations of 70_reset_and_hazards.md. -/

/-- Settles O52: one event keeps what is received or owed, and a history without a reset is an induction over
its events. -/
theorem responsesComeBackInOrder : Obligations.ResponsesComeBackInOrder := by
  unfold Obligations.ResponsesComeBackInOrder
  exact ⟨fun l _ c he => receivedOrOwed_after l c he, fun c => ⟨received_empty c, waiting_empty c⟩,
    fun _ c hes => receivedOrOwed_run Link.empty c hes⟩

/-- Settles O53: after a reset the link runs as from power-up, behind what it had delivered. -/
theorem resetDropsCommandsInFlight : Obligations.ResetDropsCommandsInFlight := by
  unfold Obligations.ResetDropsCommandsInFlight
  intro es fs c w
  refine ⟨?received, ?waiting, ?first⟩
  case received => rw [run_append_reset, received_withEarlier]
  case waiting => rw [run_append_reset, waiting_withEarlier]
  case first => rw [run_append_reset, received_withEarlier, received_accept_answer]

end Sys2Proof.Machine
end

section
/-! The worked encodings (30_encoding.md section 6): a table word decodes to the well-formed command whose
word it is. -/

namespace Sys2Proof.Machine

/-- R55, R57: naming the command whose word the bits are settles what they decode to. -/
theorem decodeTableWord_of_encode {nbits w : Nat} {i : Instr} (hi : i.WellFormed)
    (hw : tableWord nbits w = encode i) : decodeTableWord nbits w = some i := by
  rw [decodeTableWord, hw]
  exact decodeInvertsEncode i hi

/-- Settles O1: each of the seven words is the word of the command listed beside it, and the code of the
last one is reserved. -/
theorem workedEncodingsDecode : Obligations.WorkedEncodingsDecode := by
  unfold Obligations.WorkedEncodingsDecode
  refine ⟨?mkscheme, ?decode, ?add, ?sub, ?mul, ?divFull, ?divPrecision, ?reserved⟩
  case reserved => exact decodeWord_reserved (by decide)
  all_goals exact decodeTableWord_of_encode (by decide) (by decide)

end Sys2Proof.Machine
end
